-- ==== Sys2Proof/Word.lean ====
section
/-! DEFINITION. The word types of the block: bytes of the input buffer and 32-bit bus words (spec/20_memory.md). -/

namespace Sys2Proof

/-- A byte of the input buffer (R12, R53). -/
abbrev Byte := BitVec 8

/-- A 32-bit bus word: every host access is 32 bits wide (R51), and so is a command word (R70). -/
abbrev Word := BitVec 32

end Sys2Proof
end

