-- ==== Sys2Proof/Syntax.lean ====
section
/-! DEFINITION. The command set RCRC-CMD version 1: one constructor per row of spec/opcode_table.json (R78), the
fields of a command word (R70), and the assembler's names (R82). -/

namespace Sys2Proof

/-- The eight commands with their option bits (R78). `ref` is REF (R73), `rb` is RB and `rf` is RF (R74). -/
inductive Instr where
  /-- `crc.8`, R111. -/
  | crc8 (ref rb rf : Bool)
  /-- `crc.16`, R112. -/
  | crc16 (ref rb rf : Bool)
  /-- `search.8`, R124. -/
  | search8 (ref : Bool)
  /-- `search.16`, R125. -/
  | search16 (ref : Bool)
  /-- `invert.8`, R148. -/
  | invert8
  /-- `invert.16`, R149. -/
  | invert16
  /-- `invrange.8`, R150. -/
  | invrange8
  /-- `invrange.16`, R151. -/
  | invrange16
  deriving DecidableEq, Repr

/-- The operations that OP names (R71). -/
inductive Op where
  | crc
  | search
  | invert
  | invrange
  deriving DecidableEq, Repr

/-- The fields of a command word whose reserved bits are 0 and whose OP is not reserved (R70). -/
structure Fields where
  /-- OP, bits [3:0]. -/
  op : Op
  /-- W16, bit 4: set for width 16. -/
  w16 : Bool
  /-- REF, bit 5. -/
  ref : Bool
  /-- RB, bit 6. -/
  rb : Bool
  /-- RF, bit 7. -/
  rf : Bool
  deriving DecidableEq, Repr

/-- The fields that a command's word carries (R78). -/
def Instr.fields : Instr → Fields
  | .crc8 ref rb rf => ⟨.crc, false, ref, rb, rf⟩
  | .crc16 ref rb rf => ⟨.crc, true, ref, rb, rf⟩
  | .search8 ref => ⟨.search, false, ref, false, false⟩
  | .search16 ref => ⟨.search, true, ref, false, false⟩
  | .invert8 => ⟨.invert, false, false, false, false⟩
  | .invert16 => ⟨.invert, true, false, false, false⟩
  | .invrange8 => ⟨.invrange, false, false, false, false⟩
  | .invrange16 => ⟨.invrange, true, false, false, false⟩

/-- An option suffix of the assembler: present when its bit is set (R82). -/
def optionSuffix (set : Bool) (suffix : String) : String :=
  if set then suffix else ""

/-- The assembler's name of an operation (R82). -/
def Op.name : Op → String
  | .crc => "crc"
  | .search => "search"
  | .invert => "invert"
  | .invrange => "invrange"

/-- The assembler's name of a command: operation, width, then `.ref`, `.rb`, `.rf` in that order (R82). -/
def Fields.mnemonic (f : Fields) : String :=
  f.op.name ++ (if f.w16 then ".16" else ".8") ++ optionSuffix f.ref ".ref" ++ optionSuffix f.rb ".rb"
    ++ optionSuffix f.rf ".rf"

end Sys2Proof
end

