-- ==== Sys2Proof/WellFormed.lean ====
section
/-! DEFINITION. Which option bits each operation takes (R76): the check a command word's fields must pass.
Every term of `Instr` passes it by its shape, since a constructor carries only the options its row has. -/

namespace Sys2Proof

/-- R76, the row of REF: CRC and SEARCH take it, INVERT and INVRANGE must have it 0. -/
def Fields.refOk (f : Fields) : Bool :=
  match f.op with
  | .crc => true
  | .search => true
  | .invert => !f.ref
  | .invrange => !f.ref

/-- R76, the row of RB: only CRC takes it. -/
def Fields.rbOk (f : Fields) : Bool :=
  match f.op with
  | .crc => true
  | .search => !f.rb
  | .invert => !f.rb
  | .invrange => !f.rb

/-- R76, the row of RF: only CRC takes it. -/
def Fields.rfOk (f : Fields) : Bool :=
  match f.op with
  | .crc => true
  | .search => !f.rf
  | .invert => !f.rf
  | .invrange => !f.rf

/-- The fields name one of the eight commands (R76). -/
def Fields.wf (f : Fields) : Bool :=
  f.refOk && f.rbOk && f.rfOk

/-- A command is well formed when its fields are. -/
def Instr.wf (i : Instr) : Bool :=
  i.fields.wf

end Sys2Proof
end

