-- ==== Sys2Proof/Decode.lean ====
section
/-! DEFINITION. The decoder of a 32-bit command word (R77), total and refusing by name, and the encoder (R70, R78). -/

namespace Sys2Proof

/-- Why a command word is ILLEGAL (R173). -/
inductive DecodeError where
  /-- A bit of [31:8] is set (R75). -/
  | reservedBits
  /-- OP is 0b0000 or 0b0101 to 0b1111 (R71). -/
  | reservedOp
  /-- An option bit is set on an operation that does not take it (R76). -/
  | optionNotTaken
  deriving DecidableEq, Repr

/-- OP of R71, none for a reserved value. -/
def decodeOp (op : BitVec 4) : Option Op :=
  if op = 0b0001#4 then some .crc
  else if op = 0b0010#4 then some .search
  else if op = 0b0011#4 then some .invert
  else if op = 0b0100#4 then some .invrange
  else none

/-- Pull the fields of R70 out of a command word. -/
def decodeFields (c : Word) : Except DecodeError Fields :=
  if c.extractLsb' 8 24 ≠ 0#24 then .error .reservedBits
  else
    match decodeOp (c.extractLsb' 0 4) with
    | none => .error .reservedOp
    | some op => .ok ⟨op, c.getLsbD 4, c.getLsbD 5, c.getLsbD 6, c.getLsbD 7⟩

/-- The command that well-formed fields name (R78). -/
def Fields.toInstr (f : Fields) : Instr :=
  match f.op, f.w16 with
  | .crc, false => .crc8 f.ref f.rb f.rf
  | .crc, true => .crc16 f.ref f.rb f.rf
  | .search, false => .search8 f.ref
  | .search, true => .search16 f.ref
  | .invert, false => .invert8
  | .invert, true => .invert16
  | .invrange, false => .invrange8
  | .invrange, true => .invrange16

/-- R77: every 32-bit word is one of the eight commands or ILLEGAL. -/
def decode (c : Word) : Except DecodeError Instr :=
  match decodeFields c with
  | .error e => .error e
  | .ok f => if f.wf then .ok f.toInstr else .error .optionNotTaken

/-- The word whose bits are `w`, numbered as the table numbers them. A command word is the one word of 32 bits that a
host writes to CMD (R70, R80), so the bits of the table are the bits of the word. -/
def tableWord (nbits w : Nat) : Word :=
  BitVec.ofNat 32 (w % 2 ^ nbits)

/-- The command this decoder reads from a table row's bits. -/
def decodeTableWord (nbits w : Nat) : Option Instr :=
  match decode (tableWord nbits w) with
  | .ok i => some i
  | .error _ => none

/-- OP as a number (R71). -/
def encodeOp : Op → BitVec 4
  | .crc => 0b0001#4
  | .search => 0b0010#4
  | .invert => 0b0011#4
  | .invrange => 0b0100#4

/-- The command word of the fields, laid out as the pattern of R70 from bit 31 down. -/
def encodeFields (f : Fields) : Word :=
  0#24 ++ BitVec.ofBool f.rf ++ BitVec.ofBool f.rb ++ BitVec.ofBool f.ref ++ BitVec.ofBool f.w16 ++ encodeOp f.op

/-- The command word of a command (R70, R78). -/
def encode (i : Instr) : Word :=
  encodeFields i.fields

/-- The value of a command's row under its mask (R78). -/
def Instr.pattern : Instr → Word
  | .crc8 _ _ _ => 0x00000001#32
  | .crc16 _ _ _ => 0x00000011#32
  | .search8 _ => 0x00000002#32
  | .search16 _ => 0x00000012#32
  | .invert8 => 0x00000003#32
  | .invert16 => 0x00000013#32
  | .invrange8 => 0x00000004#32
  | .invrange16 => 0x00000014#32

/-- The mask of a command's row (R78). -/
def Instr.mask : Instr → Word
  | .crc8 _ _ _ => 0xFFFFFF1F#32
  | .crc16 _ _ _ => 0xFFFFFF1F#32
  | .search8 _ => 0xFFFFFFDF#32
  | .search16 _ => 0xFFFFFFDF#32
  | .invert8 => 0xFFFFFFFF#32
  | .invert16 => 0xFFFFFFFF#32
  | .invrange8 => 0xFFFFFFFF#32
  | .invrange16 => 0xFFFFFFFF#32

end Sys2Proof
end

