-- ==== Sys2Proof/Config.lean ====
section
/-! DEFINITION. What an implementation fixes (R7) and the free values of the spec (`draw`, R11).
The OPEN parameters are built from opaque naturals that have no body, so that every legal parameter value is
possible and no proof can learn which one it is. -/

namespace Sys2Proof.Config

/-- Where the platform puts the block, in units of 2^20 bytes, before it is cut to the address width (R7, D8). -/
opaque rawBase : Nat

/-- How many bits beyond 20 a host bus address has (R7, D8). -/
opaque rawAddrW : Nat

/-- Which of the legal input buffer sizes is built (R7, D9). -/
opaque rawBufWords : Nat

/-- Which of the legal result memory sizes is built (R7, D10). -/
opaque rawResultSlots : Nat

/-- The free values of the spec: `draw` number `n` is `draw n` (R11 "the model takes any value"). -/
opaque draw : Nat → Word

/-- `ADDR_W`: at least 20 (R7). -/
def addrW : Nat := 20 + rawAddrW

/-- `BASE`: aligned to 2^20 and inside the address space (R7). -/
def base : Nat := 2 ^ 20 * (rawBase % 2 ^ rawAddrW)

/-- `BUF_CAP`: a multiple of 4 from 4 to 65536 (R7). -/
def bufCap : Nat := 4 * (rawBufWords % 16384 + 1)

/-- `RESULT_CAP`: 1 to 65536 (R7). -/
def resultCap : Nat := rawResultSlots % 65536 + 1

/-- `CAND_CAP`: entries per candidate generation, fixed by the spec (R7, D11). -/
def candCap : Nat := 65536

end Sys2Proof.Config
end

