-- ==== Sys2Proof/Machine/State.lean ====
section
/-! DEFINITION. The state of one block instance (R20), of the host agent beside it (R15), and the state after
reset (R200). Plain data throughout. -/

namespace Sys2Proof.Machine

/-- Why a step stops the machine. -/
inductive Fault where
  /-- Raised by the engine step of a legal command that reads `BUF[index]`, a byte the host has not written since reset
  (R67 "A model shall treat the engine step of such a command as a fault"). SAFE: the spec gives no outcome. -/
  | unwrittenInput (index : Nat)
  deriving DecidableEq, Repr

/-- Why a command has no meaning in the model. -/
inductive Refusal where
  /-- Raised by `exec` for a command without a meaning. SAFE. No arm raises it: every row of the table has its meaning. -/
  | notModelled (mnemonic : String)
  deriving DecidableEq, Repr

/-- The errors that end a command (R171). Code 0 (NONE) is the absence of one; codes 5 to 7 are never written. -/
inductive CmdError where
  /-- Code 1: the word is ILLEGAL (R173). -/
  | illegalCommand
  /-- Code 2: a range with start above end (R175). -/
  | invalidRange
  /-- Code 3: LEN above BUF_CAP (R174). -/
  | bufferLength
  /-- Code 4: more records than RESULT_CAP, or more candidates than CAND_CAP (R176). -/
  | resourceExhausted
  deriving DecidableEq, Repr

/-- STATUS (R23). Its reserved bits hold nothing and read 0 (R37). -/
structure Status where
  /-- Bit 0: a command has been accepted and has not completed. -/
  busy : Bool
  /-- Bit 1: a command has completed and none has been accepted since. -/
  done : Bool
  /-- Bit 2, sticky: a host write was dropped because BUSY was 1. -/
  werr : Bool
  /-- Bits [6:4]: the error of the last completed command; `none` is code 0. -/
  err : Option CmdError
  deriving DecidableEq, Repr

/-- The OPEN parameters of one instance (R7): arguments of the model that no step changes. -/
structure Params where
  /-- `BASE`, the bus address of offset 0. -/
  base : Nat
  /-- `ADDR_W`, the width of a bus address. -/
  addrW : Nat
  /-- `BUF_CAP`, bytes of input buffer. -/
  bufCap : Nat
  /-- `RESULT_CAP`, result slots. -/
  resultCap : Nat
  deriving DecidableEq, Repr

/-- The thirteen host-visible registers (R21). -/
inductive RegName where
  | cmd
  | status
  | poly
  | seed
  | xorOut
  | target
  | seedStart
  | seedEnd
  | xorStart
  | xorEnd
  | len
  | crcOut
  | count
  deriving DecidableEq, Repr

/-- The widths a host access can have (R51): only `w32` is served. -/
inductive AccessWidth where
  | w8
  | w16
  | w32
  | w64
  | burst
  deriving DecidableEq, Repr

/-- What can reach the block from outside. -/
inductive HostEvent where
  /-- A bus read at an address (R11 `MemRead`). -/
  | read (width : AccessWidth) (addr : Nat)
  /-- A bus write at an address (R11 `MemWrite`). -/
  | write (width : AccessWidth) (addr : Nat) (data : Word)
  /-- The pseudo-instruction `poll`: read STATUS until BUSY is 0 (R84). -/
  | poll
  /-- A power-on or external reset of the block (R200). -/
  | reset
  deriving DecidableEq, Repr

/-- One entry of the host's agenda. While BUSY is 1 either agent may move (R43, R205); `lead` says how many more moves
this event takes before the engine does. -/
structure Turn where
  event : HostEvent
  lead : Nat
  deriving DecidableEq, Repr

/-- What a bus access answers its master. -/
inductive Response where
  /-- A read's value. -/
  | value (v : Word)
  /-- A write that completed, be it performed, ignored or dropped (R52, R57, R179). -/
  | written
  /-- An error response at this address (R178). -/
  | busError (addr : Nat)
  /-- The address is not the block's, which does not respond (R50). -/
  | noResponse (addr : Nat)
  deriving DecidableEq, Repr

/-- The machine: the block (R20), its parameters (R7), the host agent (R15) and the count of free values taken. -/
structure State where
  /-- The parameters of this instance (R7). -/
  params : Params
  /-- CMD: the last accepted command word, as written (R22). -/
  cmd : BitVec 32
  /-- STATUS (R23). -/
  status : Status
  /-- POLY[15:0] (R24). -/
  poly : BitVec 16
  /-- SEED[15:0] (R25). -/
  seed : BitVec 16
  /-- XOROUT[15:0] (R25). -/
  xorOut : BitVec 16
  /-- TARGET[15:0] (R26). -/
  target : BitVec 16
  /-- SEED_START[15:0] (R27). -/
  seedStart : BitVec 16
  /-- SEED_END[15:0] (R27). -/
  seedEnd : BitVec 16
  /-- XOR_START[15:0] (R27). -/
  xorStart : BitVec 16
  /-- XOR_END[15:0] (R27). -/
  xorEnd : BitVec 16
  /-- LEN[16:0] (R28). -/
  len : BitVec 17
  /-- CRC_OUT[15:0] (R29). -/
  crcOut : BitVec 16
  /-- COUNT[16:0] (R30). -/
  count : BitVec 17
  /-- BUF (R53): the bytes the host has written since reset, by index, indices strictly rising. -/
  buf : List Host.Cell
  /-- RES (R55): the slots that hold a specified value, from slot 0 on; every other slot is unspecified. -/
  res : List Word
  /-- The host's accesses still to come, next first, with their scheduling (R61, R43). -/
  agenda : List Turn
  /-- What the host has been answered, newest first. -/
  responses : List Response
  /-- The address of the bus error that stopped the host agent, if one did (R178). -/
  hostFault : Option Nat
  /-- How many free values have been taken (R11 `draw`). -/
  draws : Nat
  deriving DecidableEq, Repr

/-- STATUS after reset: all bits 0 (R200). -/
def Status.reset : Status :=
  { busy := false, done := false, werr := false, err := none }

/-- The parameters of the instance that is reset: uninterpreted (R7). -/
def Params.reset : Params :=
  { base := Config.base, addrW := Config.addrW, bufCap := Config.bufCap, resultCap := Config.resultCap }

/-- The machine right after reset (R200 to R202): every register 0, BUF and RES unspecified, nothing on the host's
agenda. -/
def State.reset : State :=
  { params := Params.reset
    cmd := 0
    status := Status.reset
    poly := 0
    seed := 0
    xorOut := 0
    target := 0
    seedStart := 0
    seedEnd := 0
    xorStart := 0
    xorEnd := 0
    len := 0
    crcOut := 0
    count := 0
    buf := []
    res := []
    agenda := []
    responses := []
    hostFault := none
    draws := 0 }

end Sys2Proof.Machine
end

