-- ==== Sys2Proof/Machine/Flags.lean ====
section
/-! DEFINITION. STATUS, the block's only flags (R45): how its fields change and how it reads as a word (R23). -/

namespace Sys2Proof.Machine

/-- The error code of STATUS.ERR (R171). -/
def errCode (e : Option CmdError) : BitVec 3 :=
  match e with
  | none => 0
  | some .illegalCommand => 1
  | some .invalidRange => 2
  | some .bufferLength => 3
  | some .resourceExhausted => 4

/-- STATUS as the bus reads it: BUSY 0, DONE 1, WERR 2, ERR [6:4], every other bit 0 (R23). -/
def statusWord (st : Status) : Word :=
  0#25 ++ errCode st.err ++ 0#1 ++ BitVec.ofBool st.werr ++ BitVec.ofBool st.done ++ BitVec.ofBool st.busy

/-- Acceptance of a command: BUSY 1, DONE 0, ERR 0, WERR unchanged (R40). -/
def statusAccepted (st : Status) : Status :=
  { st with busy := true, done := false, err := none }

/-- Completion with an error or none: ERR, BUSY 0, DONE 1, WERR unchanged (R42). -/
def statusCompleted (e : Option CmdError) (st : Status) : Status :=
  { st with busy := false, done := true, err := e }

/-- A host write was dropped because BUSY was 1: WERR is set (R57). -/
def statusDropped (st : Status) : Status :=
  { st with werr := true }

/-- A host write of `v` to STATUS: bit 2 set clears WERR, every other bit is ignored (R23). -/
def statusWritten (v : Word) (st : Status) : Status :=
  if v.getLsbD 2 then { st with werr := false } else st

end Sys2Proof.Machine
end

