-- ==== Sys2Proof/Machine/Operands.lean ====
section
/-! DEFINITION. The operands of the commands (R79): each from a fixed register, cut to the command's width, and the
layout of a result record (R56). -/

namespace Sys2Proof.Machine

/-- `trunc_W` of a value register (R11, R79): its low `w` bits. -/
def operand (w : Nat) (v : BitVec 16) : BitVec w :=
  v.setWidth w

/-- `p`, the polynomial (R24). -/
def opPoly (w : Nat) (s : State) : BitVec w := operand w s.poly

/-- `s`, the seed of a CRC command (R25). -/
def opSeed (w : Nat) (s : State) : BitVec w := operand w s.seed

/-- `x`, the output XOR of a CRC command (R25). -/
def opXorOut (w : Nat) (s : State) : BitVec w := operand w s.xorOut

/-- `t`, the target (R26). -/
def opTarget (w : Nat) (s : State) : BitVec w := operand w s.target

/-- `sa`, the first seed of a search (R27). -/
def opSeedStart (w : Nat) (s : State) : BitVec w := operand w s.seedStart

/-- `se`, the last seed of a search (R27). -/
def opSeedEnd (w : Nat) (s : State) : BitVec w := operand w s.seedEnd

/-- `xa`, the first output XOR of a range (R27). -/
def opXorStart (w : Nat) (s : State) : BitVec w := operand w s.xorStart

/-- `xe`, the last output XOR of a range (R27). -/
def opXorEnd (w : Nat) (s : State) : BitVec w := operand w s.xorEnd

/-- `n`, the buffer length: LEN whole (R28, R79). -/
def opLen (s : State) : Nat := s.len.toNat

/-- `rec((a, x))`: the value `a` in bits [15:0] and the output XOR `x` in bits [31:16] (R56, R42). -/
def record {w : Nat} (r : BitVec w × BitVec w) : Word :=
  (r.2.setWidth 32 <<< 16) ||| r.1.setWidth 32

end Sys2Proof.Machine
end

