-- ==== Sys2Proof/Machine/Ops.lean ====
section
/-! DEFINITION. The named operations over memory, registers and commands: the input buffer (R53, R67), register reads and
writes (R21 to R32), acceptance (R40), completion (R42), reset (R200), and the validation every command goes through
(R172). The block takes no exceptions (R181, R182): a command that cannot run ends through `complete` like any other. -/

namespace Sys2Proof.Machine

/-! ### The input buffer BUF -/

/-- What a byte of BUF that nothing has written reads as: no value (R67, R201). -/
def unwrittenByte : Option Byte := none

/-- `BUF[k]`, or no value where the host has not written it since reset. -/
def bufRead : List Host.Cell → Nat → Option Byte
  | [], _ => unwrittenByte
  | c :: m, k => if c.1 = k then some c.2 else bufRead m k

/-- `BUF[k] <- v`, keeping the indices strictly rising. -/
def bufWrite : List Host.Cell → Nat → Byte → List Host.Cell
  | [], k, v => [(k, v)]
  | c :: m, k, v =>
    if k < c.1 then (k, v) :: c :: m
    else if k = c.1 then (k, v) :: m
    else c :: bufWrite m k v

/-- The canonical form of BUF above an index: indices strictly rising and at least `lo`. A written byte is always
listed, since an unwritten one reads as no value. -/
def bufWfFrom : Nat → List Host.Cell → Bool
  | _, [] => true
  | lo, c :: m => decide (lo ≤ c.1) && bufWfFrom (c.1 + 1) m

/-- The canonical form of BUF: indices strictly rising. -/
def bufWf (m : List Host.Cell) : Bool :=
  bufWfFrom 0 m

/-- Every listed index is below `cap`. -/
def bufBelow (cap : Nat) (m : List Host.Cell) : Bool :=
  m.all fun c => decide (c.1 < cap)

/-- Byte lane `j` of a bus word. -/
def lane (v : Word) (j : Nat) : Byte :=
  v.extractLsb' (8 * j) 8

/-- The word with these four byte lanes, lane 0 lowest (R53, R59). -/
def ofLanes (b0 b1 b2 b3 : Byte) : Word :=
  b3 ++ b2 ++ b1 ++ b0

/-- A write of `v` to the BUF word whose first byte is `k`: all four bytes, little-endian (R53). -/
def bufWriteWord (m : List Host.Cell) (k : Nat) (v : Word) : List Host.Cell :=
  bufWrite (bufWrite (bufWrite (bufWrite m k (lane v 0)) (k + 1) (lane v 1)) (k + 2) (lane v 2)) (k + 3) (lane v 3)

/-- The four bytes of the BUF word at `k` are all written. -/
def bufWordWritten (m : List Host.Cell) (k : Nat) : Bool :=
  (bufRead m k).isSome && (bufRead m (k + 1)).isSome && (bufRead m (k + 2)).isSome && (bufRead m (k + 3)).isSome

/-- The BUF word at `k`, an unwritten byte lane taken from the free word `d` (R53, R67). -/
def bufReadWord (m : List Host.Cell) (k : Nat) (d : Word) : Word :=
  ofLanes ((bufRead m k).getD (lane d 0)) ((bufRead m (k + 1)).getD (lane d 1)) ((bufRead m (k + 2)).getD (lane d 2))
    ((bufRead m (k + 3)).getD (lane d 3))

/-- The `n` bytes from index `k` on, or the index of the first that is not written. -/
def bufBytesFrom (m : List Host.Cell) : Nat → Nat → Except Nat (List Byte)
  | _, 0 => .ok []
  | k, n + 1 =>
    match bufRead m k with
    | none => .error k
    | some b =>
      match bufBytesFrom m (k + 1) n with
      | .error j => .error j
      | .ok bs => .ok (b :: bs)

/-- `[BUF[0], ..., BUF[n-1]]` (R28, R53). -/
def bufBytes (m : List Host.Cell) (n : Nat) : Except Nat (List Byte) :=
  bufBytesFrom m 0 n

/-! ### Registers -/

/-- The bits a read of a register returns, its reserved bits 0 (R21, R32, R37). -/
def readReg (r : RegName) (s : State) : Word :=
  match r with
  | .cmd => s.cmd
  | .status => statusWord s.status
  | .poly => s.poly.setWidth 32
  | .seed => s.seed.setWidth 32
  | .xorOut => s.xorOut.setWidth 32
  | .target => s.target.setWidth 32
  | .seedStart => s.seedStart.setWidth 32
  | .seedEnd => s.seedEnd.setWidth 32
  | .xorStart => s.xorStart.setWidth 32
  | .xorEnd => s.xorEnd.setWidth 32
  | .len => s.len.setWidth 32
  | .crcOut => s.crcOut.setWidth 32
  | .count => s.count.setWidth 32

/-- Acceptance of a command word (R40): every value is accepted; WERR is unchanged. -/
def accept (v : Word) (s : State) : State :=
  { s with cmd := v, status := statusAccepted s.status }

/-- A host write of `v` that is performed (R22 to R30, R32): a reserved bit is not stored, a write to STATUS is a clear
of WERR, a write to CRC_OUT or COUNT is ignored. -/
def writeReg (r : RegName) (v : Word) (s : State) : State :=
  match r with
  | .cmd => accept v s
  | .status => { s with status := statusWritten v s.status }
  | .poly => { s with poly := v.setWidth 16 }
  | .seed => { s with seed := v.setWidth 16 }
  | .xorOut => { s with xorOut := v.setWidth 16 }
  | .target => { s with target := v.setWidth 16 }
  | .seedStart => { s with seedStart := v.setWidth 16 }
  | .seedEnd => { s with seedEnd := v.setWidth 16 }
  | .xorStart => { s with xorStart := v.setWidth 16 }
  | .xorEnd => { s with xorEnd := v.setWidth 16 }
  | .len => { s with len := v.setWidth 17 }
  | .crcOut => s
  | .count => s

/-- The busy drop: nothing changes but WERR (R57). -/
def dropWrite (s : State) : State :=
  { s with status := statusDropped s.status }

/-- Reset of the block (R200 to R202): every register 0, a command in progress abandoned, BUF and RES unspecified. The
host agent and the parameters are not the block's and stay. -/
def resetBlock (s : State) : State :=
  { s with
    cmd := 0
    status := Status.reset
    poly := 0
    seed := 0
    xorOut := 0
    target := 0
    seedStart := 0
    seedEnd := 0
    xorStart := 0
    xorEnd := 0
    len := 0
    crcOut := 0
    count := 0
    buf := []
    res := [] }

/-! ### Commands -/

/-- The outcome of a command of width `w` (R42). -/
inductive CmdOutcome (w : Nat) where
  /-- `OkCrc(v)`. -/
  | okCrc (v : BitVec w)
  /-- `OkRecords(L)`, each record a pair `(a, x)`. -/
  | okRecords (l : List (BitVec w × BitVec w))
  /-- `Err(e)`. -/
  | err (e : CmdError)
  deriving DecidableEq, Repr

/-- Completion, `apply(outcome)` of R42. The slots at or beyond COUNT hold unspecified values afterwards (R30), so RES
lists the records of the command and nothing else. -/
def complete {w : Nat} (o : CmdOutcome w) (s : State) : State :=
  match o with
  | .okCrc v =>
    { s with crcOut := v.setWidth 16, count := 0, res := [], status := statusCompleted none s.status }
  | .okRecords l =>
    { s with count := BitVec.ofNat 17 l.length, res := l.map record, status := statusCompleted none s.status }
  | .err e =>
    { s with count := 0, res := [], status := statusCompleted (some e) s.status }

/-- `OkRecords(L)`, or RESOURCE_EXHAUSTED when the list is longer than RESULT_CAP (R176). -/
def limitRecords {w : Nat} (cap : Nat) (l : List (BitVec w × BitVec w)) : CmdOutcome w :=
  if cap < l.length then .err .resourceExhausted else .okRecords l

/-- `limitRecords` where a candidate generation may have overflowed CAND_CAP already (`none`, R176). -/
def limitWalk {w : Nat} (cap : Nat) (l : Option (List (BitVec w × BitVec w))) : CmdOutcome w :=
  match l with
  | none => .err .resourceExhausted
  | some l => limitRecords cap l

/-- The output XOR range check of SEARCH and INVRANGE (R172, R175). -/
def xorRangeError (w : Nat) (s : State) : Option CmdError :=
  if opXorEnd w s < opXorStart w s then some .invalidRange else none

/-- The range checks of SEARCH: seeds, then output XORs (R172, R175). -/
def searchRangeError (w : Nat) (s : State) : Option CmdError :=
  if opSeedEnd w s < opSeedStart w s then some .invalidRange else xorRangeError w s

/-- The engine step of a legal command (R172): LEN against BUF_CAP, then the command's range error if it has one, then the
buffer, whose unwritten bytes fault (R67), then the command's own outcome, applied (R41, R42). -/
def runCommand {w : Nat} (s : State) (rangeError : Option CmdError) (body : List Byte → CmdOutcome w) :
    Host.Outcome State Fault Refusal :=
  if s.params.bufCap < opLen s then .next (complete (w := w) (.err .bufferLength) s)
  else
    match rangeError with
    | some e => .next (complete (w := w) (.err e) s)
    | none =>
      match bufBytes s.buf (opLen s) with
      | .error k => .fault (.unwrittenInput k)
      | .ok buf => .next (complete (body buf) s)

end Sys2Proof.Machine
end

