-- ==== Sys2Proof/Machine/Bus.lean ====
section
/-! DEFINITION. Host access (spec/20_memory.md, 60_exceptions.md section 2): the address map, bus errors, the busy rule,
reads and writes, and the host agent's moves. Every access is answered by a next state: a bus error is recorded as the
host agent's fault, which nothing clears (R178). -/

namespace Sys2Proof.Machine

/-- What an access that is no bus error reaches (R50). -/
inductive Target where
  /-- A register. -/
  | reg (r : RegName)
  /-- The BUF word whose first byte has this index. -/
  | buf (k : Nat)
  /-- A RES slot. -/
  | res (i : Nat)
  deriving DecidableEq, Repr

/-- The register at an offset (R21). -/
def regAt (off : Nat) : Option RegName :=
  if off = 0x00 then some .cmd
  else if off = 0x04 then some .status
  else if off = 0x08 then some .poly
  else if off = 0x0C then some .seed
  else if off = 0x10 then some .xorOut
  else if off = 0x14 then some .target
  else if off = 0x18 then some .seedStart
  else if off = 0x1C then some .seedEnd
  else if off = 0x20 then some .xorStart
  else if off = 0x24 then some .xorEnd
  else if off = 0x28 then some .len
  else if off = 0x2C then some .crcOut
  else if off = 0x30 then some .count
  else none

/-- The offset of a register (R21). -/
def regOffset : RegName → Nat
  | .cmd => 0x00
  | .status => 0x04
  | .poly => 0x08
  | .seed => 0x0C
  | .xorOut => 0x10
  | .target => 0x14
  | .seedStart => 0x18
  | .seedEnd => 0x1C
  | .xorStart => 0x20
  | .xorEnd => 0x24
  | .len => 0x28
  | .crcOut => 0x2C
  | .count => 0x30

/-- Offset of BUF in the block (R50, R53). -/
def bufWindow : Nat := 0x10000

/-- Offset of RES in the block (R50, R55). -/
def resWindow : Nat := 0x40000

/-- What an offset holds (R50), none for a reserved one. -/
def targetAt (p : Params) (off : Nat) : Option Target :=
  if bufWindow ≤ off ∧ off < bufWindow + p.bufCap then some (.buf (off - bufWindow))
  else if resWindow ≤ off ∧ off < resWindow + 4 * p.resultCap then some (.res ((off - resWindow) / 4))
  else
    match regAt off with
    | some r => some (.reg r)
    | none => none

/-- What an access reaches, none for a bus error whatever its direction (R51, R52, R178). -/
def busTarget (p : Params) (width : AccessWidth) (off : Nat) : Option Target :=
  if width = .w32 ∧ off % 4 = 0 then targetAt p off else none

/-- The address is in the block's range (R50). -/
def inBlock (p : Params) (addr : Nat) : Bool :=
  decide (p.base ≤ addr) && decide (addr ≤ p.base + 0xFFFFF)

/-- An access answered to the host. -/
def respond (r : Response) (s : State) : State :=
  { s with responses := r :: s.responses }

/-- A bus error: an error response, and the host agent stops; nothing of the block changes (R178). -/
def busError (addr : Nat) (s : State) : State :=
  { s with responses := .busError addr :: s.responses, hostFault := some addr }

/-- A free value is taken (R11 `draw`). -/
def takeDraw (s : State) : State :=
  { s with draws := s.draws + 1 }

/-- A read answered with a free value. -/
def readDraw (s : State) : State :=
  respond (.value (Config.draw s.draws)) (takeDraw s)

/-- A read of a register: CRC_OUT and COUNT are free values while BUSY is 1 (R31, R58). -/
def readRegister (r : RegName) (s : State) : State :=
  if s.status.busy && (r == .crcOut || r == .count) then readDraw s
  else respond (.value (readReg r s)) s

/-- A read of a BUF word: a lane whose byte is not written is a free value (R53, R67). -/
def readBuf (k : Nat) (s : State) : State :=
  if bufWordWritten s.buf k then respond (.value (bufReadWord s.buf k 0)) s
  else respond (.value (bufReadWord s.buf k (Config.draw s.draws))) (takeDraw s)

/-- A read of a RES slot: a free value while BUSY is 1 or at or beyond COUNT (R55, R58). -/
def readRes (i : Nat) (s : State) : State :=
  if !s.status.busy && decide (i < s.count.toNat) then
    match s.res[i]? with
    | some v => respond (.value v) s
    | none => readDraw s
  else readDraw s

/-- A read that is no bus error. -/
def readTarget (t : Target) (s : State) : State :=
  match t with
  | .reg r => readRegister r s
  | .buf k => readBuf k s
  | .res i => readRes i s

/-- A host read (R50 to R53, R55, R58, R178). -/
def hostRead (width : AccessWidth) (addr : Nat) (s : State) : State :=
  if inBlock s.params addr then
    match busTarget s.params width (addr - s.params.base) with
    | some t => readTarget t s
    | none => busError addr s
  else respond (.noResponse addr) s

/-- A register write under the busy rule: dropped while BUSY is 1, but for STATUS (R57). -/
def writeRegister (r : RegName) (v : Word) (s : State) : State :=
  if s.status.busy && r != .status then dropWrite s else writeReg r v s

/-- A write of a BUF word under the busy rule (R53, R57). -/
def writeBuf (k : Nat) (v : Word) (s : State) : State :=
  if s.status.busy then dropWrite s else { s with buf := bufWriteWord s.buf k v }

/-- A host write (R50 to R53, R55, R57, R178): the bus error comes before the busy drop (R180). -/
def hostWrite (width : AccessWidth) (addr : Nat) (v : Word) (s : State) : State :=
  if inBlock s.params addr then
    match busTarget s.params width (addr - s.params.base) with
    | some (.reg r) => respond .written (writeRegister r v s)
    | some (.buf k) => respond .written (writeBuf k v s)
    | some (.res _) => busError addr s
    | none => busError addr s
  else respond (.noResponse addr) s

/-- The host's agenda replaced. -/
def setAgenda (l : List Turn) (s : State) : State :=
  { s with agenda := l }

/-- One turn of `poll`: read STATUS, and come back while BUSY reads 1 (R84). Coming back uses up one move of the lead. -/
def hostPoll (lead : Nat) (s : State) : State :=
  let s' := hostRead .w32 (s.params.base + regOffset .status) s
  if s.status.busy then setAgenda (⟨.poll, lead - 1⟩ :: s'.agenda) s' else s'

/-- The host's next event takes effect. A host that a bus error has stopped performs no access (R178); reset is not the
host's and still arrives (R200). -/
def deliver (t : Turn) (s : State) : State :=
  match t.event with
  | .reset => resetBlock s
  | .read width addr => if s.hostFault.isSome then s else hostRead width addr s
  | .write width addr v => if s.hostFault.isSome then s else hostWrite width addr v s
  | .poll => if s.hostFault.isSome then s else hostPoll t.lead s

/-- The host's move: its next event, or nothing where it has none (R189). -/
def hostStep (s : State) : State :=
  match s.agenda with
  | [] => s
  | t :: rest => deliver t (setAgenda rest s)

/-- The engine moves next: BUSY is 1 and no event of the host goes before it (R41, R43). -/
def engineTurn (s : State) : Bool :=
  s.status.busy &&
    match s.agenda with
    | [] => true
    | t :: _ => t.lead == 0

/-- The host's next event waits for the engine. -/
def yieldTurn : List Turn → List Turn
  | [] => []
  | t :: rest => ⟨t.event, 0⟩ :: rest

/-- A command word accepted, with the engine to move next. -/
def placeCommand (c : Word) (s : State) : State :=
  setAgenda (yieldTurn s.agenda) (accept c s)

end Sys2Proof.Machine
end

