-- ==== Sys2Proof/Machine/Forward.lean ====
section
/-! DEFINITION. The forward CRC engine (spec/40_forward.md): the shift recurrence, its bit-serial, table-driven and
per-bit forms, the input transform, and the meanings of CRC8 and CRC16. Widths 8 and 16 are both the width `w`. -/

namespace Sys2Proof.Machine

/-- `step_W(r, p)`: one shift of the register (R100). -/
def shiftStep {w : Nat} (r p : BitVec w) : BitVec w :=
  if r.msb then (r <<< 1) ^^^ p else r <<< 1

/-- `step_W` applied `n` times. -/
def shiftSteps {w : Nat} : Nat → BitVec w → BitVec w → BitVec w
  | 0, r, _ => r
  | n + 1, r, p => shiftSteps n (shiftStep r p) p

/-- A byte in the high byte of a register: `zext_W(b) << (W-8)` (R101). -/
def highByte (w : Nat) (b : Byte) : BitVec w :=
  b.setWidth w <<< (w - 8)

/-- `fwd_byte_W(r, b, p)`, the bit-serial reference form (R101). -/
def fwdByte {w : Nat} (r : BitVec w) (b : Byte) (p : BitVec w) : BitVec w :=
  shiftSteps 8 (r ^^^ highByte w b) p

/-- `T_{W,p}[i]`, an entry of the lookup table (R103). -/
def tableEntry {w : Nat} (p : BitVec w) (i : Byte) : BitVec w :=
  shiftSteps 8 (highByte w i) p

/-- The high byte of a register, `r[W-1:W-8]` (R104). -/
def topByte {w : Nat} (r : BitVec w) : Byte :=
  r.extractLsb' (w - 8) 8

/-- `fwd_byte_tab_W(r, b, p)`, the table-driven form (R104). -/
def fwdByteTab {w : Nat} (r : BitVec w) (b : Byte) (p : BitVec w) : BitVec w :=
  (r <<< 8) ^^^ tableEntry p (topByte r ^^^ b)

/-- `fbit_W(r, d, p)`, one data bit (R106). -/
def fbit {w : Nat} (r : BitVec w) (d : Bool) (p : BitVec w) : BitVec w :=
  if r.msb ^^ d then (r <<< 1) ^^^ p else r <<< 1

/-- The bits of a byte in the order the forward engine takes them: `b[7]` to `b[0]` (R12, R106). -/
def bitsMsbFirst (b : Byte) : List Bool :=
  [b.getLsbD 7, b.getLsbD 6, b.getLsbD 5, b.getLsbD 4, b.getLsbD 3, b.getLsbD 2, b.getLsbD 1, b.getLsbD 0]

/-- `core_W(buf, p, s)` in the bit-serial form (R102). -/
def coreW {w : Nat} (buf : List Byte) (p s : BitVec w) : BitVec w :=
  buf.foldl (fun r b => fwdByte r b p) s

/-- `core_W(buf, p, s)` in the table-driven form (R102, R104). -/
def coreTab {w : Nat} (buf : List Byte) (p s : BitVec w) : BitVec w :=
  buf.foldl (fun r b => fwdByteTab r b p) s

/-- `crc_W(buf, p, s, x)` (R102). -/
def crc {w : Nat} (buf : List Byte) (p s x : BitVec w) : BitVec w :=
  coreW buf p s ^^^ x

/-- `crc_W` by the form that REF selects: 0 the table-driven one, 1 the bit-serial one (R73). -/
def crcBy {w : Nat} (ref : Bool) (buf : List Byte) (p s x : BitVec w) : BitVec w :=
  (if ref then coreW buf p s else coreTab buf p s) ^^^ x

/-- `reflect8(b)`: bit `i` of the result is bit `7 - i` of `b` (R107). -/
def reflect8 (b : Byte) : Byte :=
  BitVec.ofBool (b.getLsbD 0) ++ BitVec.ofBool (b.getLsbD 1) ++ BitVec.ofBool (b.getLsbD 2) ++ BitVec.ofBool (b.getLsbD 3)
    ++ BitVec.ofBool (b.getLsbD 4) ++ BitVec.ofBool (b.getLsbD 5) ++ BitVec.ofBool (b.getLsbD 6)
    ++ BitVec.ofBool (b.getLsbD 7)

/-- `xform(buf, rb, rf)`: the whole list reversed, then each byte reflected (R107, D21). -/
def xform (buf : List Byte) (rb rf : Bool) : List Byte :=
  let c := if rb then buf.reverse else buf
  if rf then c.map reflect8 else c

/-- The CRC command of width `w` (R111, R112). -/
def crcCommand (w : Nat) (ref rb rf : Bool) (s : State) : Host.Outcome State Fault Refusal :=
  runCommand (w := w) s none fun buf =>
    .okCrc (crcBy ref (xform buf rb rf) (opPoly w s) (opSeed w s) (opXorOut w s))

/-- CRC8 (R111). -/
def execCrc8 (ref rb rf : Bool) (s : State) : Host.Outcome State Fault Refusal :=
  crcCommand 8 ref rb rf s

/-- CRC16 (R112). -/
def execCrc16 (ref rb rf : Bool) (s : State) : Host.Outcome State Fault Refusal :=
  crcCommand 16 ref rb rf s

end Sys2Proof.Machine
end

