-- ==== Sys2Proof/Machine/Search.lean ====
section
/-! DEFINITION. The parameter range search (spec/41_search.md): ranges, the search over them, and the meanings of SEARCH8
and SEARCH16. -/

namespace Sys2Proof.Machine

/-- The loop of `range_W` (R120): add `v`; stop when it is the end, before any increment. The first argument bounds the
loop and is the distance to the end, so the end is reached as it runs out. -/
def rangeLoop {w : Nat} : Nat → BitVec w → BitVec w → List (BitVec w)
  | 0, v, _ => [v]
  | n + 1, v, b => if v = b then [v] else v :: rangeLoop n (v + 1) b

/-- `range_W(a, b)`: the closed interval, ascending, for `a ≤ b` (R120). -/
def range {w : Nat} (a b : BitVec w) : List (BitVec w) :=
  rangeLoop (b.toNat - a.toNat) a b

/-- `search_W` (R121): every pair whose CRC, by the form that REF selects, is the target; seed-major, xor-minor. -/
def search {w : Nat} (ref : Bool) (buf : List Byte) (p t sa se xa xe : BitVec w) : List (BitVec w × BitVec w) :=
  (range sa se).flatMap fun s =>
    ((range xa xe).filter fun x => crcBy ref buf p s x == t).map fun x => (s, x)

/-- The SEARCH command of width `w` (R124, R125). -/
def searchCommand (w : Nat) (ref : Bool) (s : State) : Host.Outcome State Fault Refusal :=
  runCommand (w := w) s (searchRangeError w s) fun buf =>
    limitRecords s.params.resultCap
      (search ref buf (opPoly w s) (opTarget w s) (opSeedStart w s) (opSeedEnd w s) (opXorStart w s) (opXorEnd w s))

/-- SEARCH8 (R124). -/
def execSearch8 (ref : Bool) (s : State) : Host.Outcome State Fault Refusal :=
  searchCommand 8 ref s

/-- SEARCH16 (R125). -/
def execSearch16 (ref : Bool) (s : State) : Host.Outcome State Fault Refusal :=
  searchCommand 16 ref s

end Sys2Proof.Machine
end

