-- ==== Sys2Proof/Machine/Inversion.lean ====
section
/-! DEFINITION. The CRC inversion engine (spec/42_inversion.md, with 90_conflicts.md C1, C2 and C10): the reverse bit step,
the walk, inversion over an output XOR range, and the meanings of INVERT8, INVERT16, INVRANGE8 and INVRANGE16. -/

namespace Sys2Proof.Machine

/-- A bit in the top position: `zext_W(d) << (W-1)` (R140). -/
def topBit (w : Nat) (d : Bool) : BitVec w :=
  (BitVec.ofBool d).setWidth w <<< (w - 1)

/-- `rev_W(r', d, p)`: the predecessors of `r'`, without the polynomial first, then with it (R140). -/
def rev {w : Nat} (r' : BitVec w) (d : Bool) (p : BitVec w) : List (BitVec w) :=
  (if r'.getLsbD 0 then [] else [(r' >>> 1) ||| topBit w d])
    ++ (if (r' ^^^ p).getLsbD 0 then [] else [((r' ^^^ p) >>> 1) ||| topBit w (!d)])

/-- `gen_step_W(G, d, p)`: the predecessors of every candidate, in candidate order (R142). -/
def genStep {w : Nat} (g : List (BitVec w)) (d : Bool) (p : BitVec w) : List (BitVec w) :=
  g.flatMap fun r => rev r d p

/-- The walk over a list of data bits, last consumed first (R143): `none` is RESOURCE_EXHAUSTED, and an empty generation
ends it at once. -/
def invertBits {w : Nat} (p : BitVec w) : List Bool → List (BitVec w) → Option (List (BitVec w))
  | [], g => some g
  | d :: ds, g =>
    if Config.candCap < (genStep g d p).length then none
    else if genStep g d p = [] then some []
    else invertBits p ds (genStep g d p)

/-- The bits of a byte in the order the walk takes them: `b[0]` to `b[7]` (R143). -/
def bitsLsbFirst (b : Byte) : List Bool :=
  [b.getLsbD 0, b.getLsbD 1, b.getLsbD 2, b.getLsbD 3, b.getLsbD 4, b.getLsbD 5, b.getLsbD 6, b.getLsbD 7]

/-- `invert_W(buf, p, t)`: last byte first, bit 0 of each byte first (R143, C1). -/
def invert {w : Nat} (buf : List Byte) (p t : BitVec w) : Option (List (BitVec w)) :=
  invertBits p (buf.reverse.flatMap bitsLsbFirst) [t]

/-- The loop of `invrange_W` over the output XORs (R146): exhaustion in any inversion ends it. -/
def invrangeOver {w : Nat} (buf : List Byte) (p t : BitVec w) : List (BitVec w) → Option (List (BitVec w × BitVec w))
  | [] => some []
  | x :: xs =>
    match invert buf p (t ^^^ x) with
    | none => none
    | some cs =>
      match invrangeOver buf p t xs with
      | none => none
      | some l => some (cs.map (fun c => (c, x)) ++ l)

/-- `invrange_W(buf, p, t, xa, xe)` (R146). -/
def invrange {w : Nat} (buf : List Byte) (p t xa xe : BitVec w) : Option (List (BitVec w × BitVec w)) :=
  invrangeOver buf p t (range xa xe)

/-- The records of an INVERT: each candidate with XOR 0 (R148, D31). -/
def invertRecords {w : Nat} (g : Option (List (BitVec w))) : Option (List (BitVec w × BitVec w)) :=
  g.map fun l => l.map fun c => (c, 0)

/-- The INVERT command of width `w` (R148, R149). -/
def invertCommand (w : Nat) (s : State) : Host.Outcome State Fault Refusal :=
  runCommand (w := w) s none fun buf =>
    limitWalk s.params.resultCap (invertRecords (invert buf (opPoly w s) (opTarget w s)))

/-- The INVRANGE command of width `w` (R150, R151). -/
def invrangeCommand (w : Nat) (s : State) : Host.Outcome State Fault Refusal :=
  runCommand (w := w) s (xorRangeError w s) fun buf =>
    limitWalk s.params.resultCap (invrange buf (opPoly w s) (opTarget w s) (opXorStart w s) (opXorEnd w s))

/-- INVERT8 (R148). -/
def execInvert8 (s : State) : Host.Outcome State Fault Refusal :=
  invertCommand 8 s

/-- INVERT16 (R149). -/
def execInvert16 (s : State) : Host.Outcome State Fault Refusal :=
  invertCommand 16 s

/-- INVRANGE8 (R150). -/
def execInvrange8 (s : State) : Host.Outcome State Fault Refusal :=
  invrangeCommand 8 s

/-- INVRANGE16 (R151). -/
def execInvrange16 (s : State) : Host.Outcome State Fault Refusal :=
  invrangeCommand 16 s

end Sys2Proof.Machine
end

