-- ==== Sys2Proof/Machine/Dispatch.lean ====
section
/-! DEFINITION. One arm per command: the meaning that a legal command word has (R172). -/

namespace Sys2Proof.Machine

def exec (i : Instr) (s : State) : Host.Outcome State Fault Refusal :=
  match i with
  | .crc8 ref rb rf => Sys2Proof.Machine.execCrc8 ref rb rf s
  | .crc16 ref rb rf => Sys2Proof.Machine.execCrc16 ref rb rf s
  | .search8 ref => Sys2Proof.Machine.execSearch8 ref s
  | .search16 ref => Sys2Proof.Machine.execSearch16 ref s
  | .invert8 => Sys2Proof.Machine.execInvert8 s
  | .invert16 => Sys2Proof.Machine.execInvert16 s
  | .invrange8 => Sys2Proof.Machine.execInvrange8 s
  | .invrange16 => Sys2Proof.Machine.execInvrange16 s

end Sys2Proof.Machine
end

