-- ==== Sys2Proof/Machine/Engine.lean ====
section
/-! DEFINITION. The engine agent's step (R41): decode the word latched in CMD and execute it in one transition. -/

namespace Sys2Proof.Machine

/-- An ILLEGAL word completes with ILLEGAL_COMMAND (R173). -/
def illegalCommand (s : State) : State :=
  complete (w := 8) (.err .illegalCommand) s

/-- The engine step of R41 and R172. -/
def engineStep (s : State) : Host.Outcome State Fault Refusal :=
  match decode s.cmd with
  | .ok i => exec i s
  | .error _ => .next (illegalCommand s)

end Sys2Proof.Machine
end

