-- ==== Sys2Proof/Machine/Step.lean ====
section
/-! DEFINITION. One step of the machine: one host event or one engine step, in the one order of R61. -/

namespace Sys2Proof.Machine

/-- One step. While BUSY is 1 the agenda says which agent moves (R43, R205); while BUSY is 0 only the host can, and with
nothing on its agenda the block idles (R189). -/
def step (s : State) : Host.Outcome State Fault Refusal :=
  if engineTurn s then engineStep s else .next (hostStep s)

/-- The state with the command word of a table row's bits accepted (R40), so that the next step is the engine's and runs it:
CMD and STATUS as acceptance leaves them, and a host event that would go first waits. -/
def State.withFetchWord (s : State) (nbits w : Nat) : State :=
  placeCommand (tableWord nbits w) s

end Sys2Proof.Machine
end

