-- ==== Sys2Proof/Machine/Program.lean ====
section
/-! DEFINITION. Host program statements (R83) and pseudo-instructions (R84) as the host events they stand for. -/

namespace Sys2Proof.Machine

/-- `wr NAME, v` for a register (R83). -/
def wrReg (base : Nat) (r : RegName) (v : Word) : HostEvent :=
  .write .w32 (base + regOffset r) v

/-- `wr BUF+o, v` (R83). -/
def wrBufWord (base o : Nat) (v : Word) : HostEvent :=
  .write .w32 (base + bufWindow + o) v

/-- `rd NAME` for a register (R83). -/
def rdReg (base : Nat) (r : RegName) : HostEvent :=
  .read .w32 (base + regOffset r)

/-- `rd BUF+o` (R83). -/
def rdBufWord (base o : Nat) : HostEvent :=
  .read .w32 (base + bufWindow + o)

/-- `rd RES+o` (R83). -/
def rdRes (base o : Nat) : HostEvent :=
  .read .w32 (base + resWindow + o)

/-- `cmd m` (R84). -/
def cmdWord (base : Nat) (m : Word) : HostEvent :=
  wrReg base .cmd m

/-- `run m`: `cmd m` and then `poll` (R84). -/
def runWord (base : Nat) (m : Word) : List HostEvent :=
  [cmdWord base m, .poll]

/-- `clrwerr` (R84). -/
def clrwerr (base : Nat) : HostEvent :=
  wrReg base .status 0x00000004#32

/-- The word writes of `wrbuf` from byte offset `o` on, a missing byte being 0 (R84). The first argument bounds the
recursion; the number of bytes is enough. -/
def wrbufWords (base : Nat) : Nat → Nat → List Byte → List HostEvent
  | 0, _, _ => []
  | _ + 1, _, [] => []
  | n + 1, o, b0 :: bs =>
    wrBufWord base o (ofLanes b0 (bs.getD 0 0) (bs.getD 1 0) (bs.getD 2 0)) :: wrbufWords base n (o + 4) (bs.drop 3)

/-- `wrbuf b0, ..., b(n-1)`: the word writes, then LEN (R84). -/
def wrbuf (base : Nat) (bs : List Byte) : List HostEvent :=
  wrbufWords base bs.length 0 bs ++ [wrReg base .len (BitVec.ofNat 32 bs.length)]

/-- A host program all of whose events wait for the engine: a host that polls before it goes on (R205). -/
def patient (es : List HostEvent) : List Turn :=
  es.map fun e => ⟨e, 0⟩

end Sys2Proof.Machine
end

