-- ==== Sys2Proof/Safety.lean ====
section
/-! DEFINITION. The terms in which statements speak of the machine: legal parameters, the invariant that every step
keeps, how a command ends, what a command reads, and the list forms of the spec's consequences (R122, R178, R183). -/

namespace Sys2Proof.Machine

/-- The parameter values that R7 allows, the block inside the address space. -/
structure Params.Valid (p : Params) : Prop where
  /-- BASE is aligned to 2^20. -/
  baseAligned : p.base % 2 ^ 20 = 0
  /-- ADDR_W is at least 20. -/
  addrWMin : 20 ≤ p.addrW
  /-- The block's range lies in the address space. -/
  baseInside : p.base + 2 ^ 20 ≤ 2 ^ p.addrW
  /-- BUF_CAP is a multiple of 4. -/
  bufCapAligned : p.bufCap % 4 = 0
  /-- BUF_CAP is at least 4. -/
  bufCapMin : 4 ≤ p.bufCap
  /-- BUF_CAP is at most 65536. -/
  bufCapMax : p.bufCap ≤ 65536
  /-- RESULT_CAP is at least 1. -/
  resultCapMin : 1 ≤ p.resultCap
  /-- RESULT_CAP is at most 65536. -/
  resultCapMax : p.resultCap ≤ 65536

/-- What every reachable state satisfies. -/
structure Inv (s : State) : Prop where
  /-- The parameters are legal (R7). -/
  params : s.params.Valid
  /-- BUF is in its canonical form. -/
  bufCanonical : bufWf s.buf = true
  /-- BUF has BUF_CAP bytes (R53). -/
  bufInside : bufBelow s.params.bufCap s.buf = true
  /-- Slots 0 to COUNT-1 of RES hold records and no other slot does (R30). -/
  resCount : s.res.length = s.count.toNat
  /-- No command reports more records than there are slots (R176). -/
  countInside : s.count.toNat ≤ s.params.resultCap
  /-- DONE and ERR are 0 while BUSY is 1 (R23). -/
  busyFlags : s.status.busy = true → s.status.done = false ∧ s.status.err = none
  /-- An error is that of a completed command, which has no records (R23, R42). -/
  errFlags : s.status.err ≠ none → s.status.done = true ∧ s.count = 0
  /-- Before any command since reset, CMD, CRC_OUT and COUNT are 0 (R200). -/
  fresh : s.status.busy = false → s.status.done = false → s.cmd = 0 ∧ s.crcOut = 0 ∧ s.count = 0

/-- The BUF word at `k` is written whole or not at all: a host write always sets all four bytes (R53). -/
def WholeWords (m : List Host.Cell) : Prop :=
  ∀ k, (bufRead m (4 * k)).isSome = (bufRead m (4 * k + 1)).isSome ∧
    (bufRead m (4 * k)).isSome = (bufRead m (4 * k + 2)).isSome ∧
    (bufRead m (4 * k)).isSome = (bufRead m (4 * k + 3)).isSome

/-- STATUS after a command that ended without an error: ERR 0, BUSY 0, DONE 1 (R42). -/
def succeeded (s : State) : Status :=
  { busy := false, done := true, werr := s.status.werr, err := none }

/-- The state after a CRC command that gave `v` (R42). -/
def afterCrc (v : BitVec 16) (s : State) : State :=
  { s with crcOut := v, count := 0, res := [], status := succeeded s }

/-- The state after a command that gave these records (R42). -/
def afterRecords (l : List Word) (s : State) : State :=
  { s with count := BitVec.ofNat 17 l.length, res := l, status := succeeded s }

/-- The state after a command that ended with an error: COUNT 0, no record valid, CRC_OUT and all else unchanged (R42). -/
def afterError (e : CmdError) (s : State) : State :=
  { s with count := 0, res := [], status := { busy := false, done := true, werr := s.status.werr, err := some e } }

/-- LEN fits BUF_CAP and the buffer `[BUF[0], ..., BUF[n-1]]` is written, with these bytes (R28, R67, R174). -/
def HasInput (s : State) (buf : List Byte) : Prop :=
  opLen s ≤ s.params.bufCap ∧ bufBytes s.buf (opLen s) = .ok buf

/-- The output XOR range of width `w` is valid (R120). -/
abbrev XorRangeValid (w : Nat) (s : State) : Prop :=
  opXorStart w s ≤ opXorEnd w s

/-- Both ranges of a search of width `w` are valid (R120). -/
abbrev SearchRangesValid (w : Nat) (s : State) : Prop :=
  opSeedStart w s ≤ opSeedEnd w s ∧ XorRangeValid w s

/-- The ranges that a command reads are valid (R175): CRC and INVERT read none. -/
def RangesValid (i : Instr) (s : State) : Prop :=
  match i with
  | .crc8 _ _ _ => True
  | .crc16 _ _ _ => True
  | .search8 _ => SearchRangesValid 8 s
  | .search16 _ => SearchRangesValid 16 s
  | .invert8 => True
  | .invert16 => True
  | .invrange8 => XorRangeValid 8 s
  | .invrange16 => XorRangeValid 16 s

/-- The command is one of the forward engine. -/
def IsCrc (i : Instr) : Prop :=
  match i with
  | .crc8 _ _ _ => True
  | .crc16 _ _ _ => True
  | .search8 _ => False
  | .search16 _ => False
  | .invert8 => False
  | .invert16 => False
  | .invrange8 => False
  | .invrange16 => False

/-- The width of a command (R72). -/
def commandWidth (i : Instr) : Nat :=
  match i with
  | .crc8 _ _ _ => 8
  | .crc16 _ _ _ => 16
  | .search8 _ => 8
  | .search16 _ => 16
  | .invert8 => 8
  | .invert16 => 16
  | .invrange8 => 8
  | .invrange16 => 16

/-- The pairs of a search in the closed form of R122: seed `s` with the one output XOR that turns its register into the
target, when that XOR is in the range. -/
def searchPairs {w : Nat} (buf : List Byte) (p t sa se xa xe : BitVec w) : List (BitVec w × BitVec w) :=
  (range sa se).filterMap fun s =>
    if xa ≤ coreW buf p s ^^^ t ∧ coreW buf p s ^^^ t ≤ xe then some (s, coreW buf p s ^^^ t) else none

/-- What a command's outcome is a function of (R33, R183): the capacities, the parameter registers, and the bytes below
LEN. -/
structure SameInputs (s t : State) : Prop where
  bufCap : s.params.bufCap = t.params.bufCap
  resultCap : s.params.resultCap = t.params.resultCap
  poly : s.poly = t.poly
  seed : s.seed = t.seed
  xorOut : s.xorOut = t.xorOut
  target : s.target = t.target
  seedStart : s.seedStart = t.seedStart
  seedEnd : s.seedEnd = t.seedEnd
  xorStart : s.xorStart = t.xorStart
  xorEnd : s.xorEnd = t.xorEnd
  len : s.len = t.len
  bytes : ∀ k, k < opLen s → bufRead s.buf k = bufRead t.buf k

/-- Nothing a command reads differs, and neither does CMD: what the busy rule keeps while a command is pending (R33). -/
structure SameCommand (s t : State) : Prop where
  params : s.params = t.params
  cmd : s.cmd = t.cmd
  poly : s.poly = t.poly
  seed : s.seed = t.seed
  xorOut : s.xorOut = t.xorOut
  target : s.target = t.target
  seedStart : s.seedStart = t.seedStart
  seedEnd : s.seedEnd = t.seedEnd
  xorStart : s.xorStart = t.xorStart
  xorEnd : s.xorEnd = t.xorEnd
  len : s.len = t.len
  buf : s.buf = t.buf

/-- Everything of the block: the registers of R21, BUF and RES (R20). The host agent's fields and the count of free
values are not the block's. -/
structure SameBlock (s t : State) : Prop where
  command : SameCommand s t
  status : s.status = t.status
  crcOut : s.crcOut = t.crcOut
  count : s.count = t.count
  res : s.res = t.res

/-- The offsets and widths that end an access with a bus error whatever its direction (R178). -/
def BadAccess (p : Params) (width : AccessWidth) (off : Nat) : Prop :=
  width ≠ .w32 ∨ off % 4 ≠ 0 ∨
    (0x34 ≤ off ∧ off ≤ 0xFFFF) ∨ (0x20000 ≤ off ∧ off ≤ 0x3FFFF) ∨ (0x80000 ≤ off ∧ off ≤ 0xFFFFF) ∨
    (0x10000 + p.bufCap ≤ off ∧ off ≤ 0x1FFFF) ∨ (0x40000 + 4 * p.resultCap ≤ off ∧ off ≤ 0x7FFFF)

/-- The implemented bits of a register (R21). -/
def implemented : RegName → Word
  | .cmd => 0xFFFFFFFF#32
  | .status => 0x00000077#32
  | .poly => 0x0000FFFF#32
  | .seed => 0x0000FFFF#32
  | .xorOut => 0x0000FFFF#32
  | .target => 0x0000FFFF#32
  | .seedStart => 0x0000FFFF#32
  | .seedEnd => 0x0000FFFF#32
  | .xorStart => 0x0000FFFF#32
  | .xorEnd => 0x0000FFFF#32
  | .len => 0x0001FFFF#32
  | .crcOut => 0x0000FFFF#32
  | .count => 0x0001FFFF#32

/-- The nine parameter registers (R32). -/
def parameterRegs : List RegName :=
  [.poly, .seed, .xorOut, .target, .seedStart, .seedEnd, .xorStart, .xorEnd, .len]

/-- The event at the head of the agenda, which the host's move performs unless a bus error has stopped the host. -/
def nextEvent (s : State) : Option HostEvent :=
  match s.agenda with
  | [] => none
  | t :: _ => some t.event

/-- The host's moves that may still go before the engine while BUSY is 1 (R43). -/
def leadTotal : List Turn → Nat
  | [] => 0
  | t :: rest => t.lead + leadTotal rest

/-- The state after the events of a host program, each performed at once. -/
def deliverAll (es : List HostEvent) (s : State) : State :=
  es.foldl (fun s e => deliver ⟨e, 0⟩ s) s

end Sys2Proof.Machine
end

