-- ==== Sys2Proof/Certificates/Slice0/Obligations.lean ====
section
/-! DEFINITION. The statements for the provers: one definition per statement, each with the rule of the spec it is about.
Widths are 8 and 16 throughout (R1), written as `w = 8 ∨ w = 16` where the spec speaks of `W`. -/

open Sys2Proof Sys2Proof.Machine

/-! ### Encoding (spec/30_encoding.md) -/

/-- R77, R78, R80: every command is well formed and is read back from its own word, and a word is read as a command only
when it is that command's word: no bit is dropped and no other word is accepted. -/
def Obligations.DecodeEncodeAgree : Prop :=
  (∀ i : Instr, i.wf = true) ∧ ∀ (c : Word) (i : Instr), decode c = .ok i ↔ c = encode i

/-- R78: each row's mask and value select exactly its command, the options are the free bits, and the 24 legal words are
the ones listed. -/
def Obligations.MasksSelectCommands : Prop :=
  ∀ c : Word,
    ((decode c = .ok (.crc8 (c.getLsbD 5) (c.getLsbD 6) (c.getLsbD 7))) ↔ c &&& 0xFFFFFF1F#32 = 0x00000001#32) ∧
    ((decode c = .ok (.crc16 (c.getLsbD 5) (c.getLsbD 6) (c.getLsbD 7))) ↔ c &&& 0xFFFFFF1F#32 = 0x00000011#32) ∧
    ((decode c = .ok (.search8 (c.getLsbD 5))) ↔ c &&& 0xFFFFFFDF#32 = 0x00000002#32) ∧
    ((decode c = .ok (.search16 (c.getLsbD 5))) ↔ c &&& 0xFFFFFFDF#32 = 0x00000012#32) ∧
    ((decode c = .ok .invert8) ↔ c &&& 0xFFFFFFFF#32 = 0x00000003#32) ∧
    ((decode c = .ok .invert16) ↔ c &&& 0xFFFFFFFF#32 = 0x00000013#32) ∧
    ((decode c = .ok .invrange8) ↔ c &&& 0xFFFFFFFF#32 = 0x00000004#32) ∧
    ((decode c = .ok .invrange16) ↔ c &&& 0xFFFFFFFF#32 = 0x00000014#32) ∧
    ((∃ i, decode c = .ok i) ↔
      c ∈ [0x01#32, 0x21#32, 0x41#32, 0x61#32, 0x81#32, 0xA1#32, 0xC1#32, 0xE1#32,
        0x11#32, 0x31#32, 0x51#32, 0x71#32, 0x91#32, 0xB1#32, 0xD1#32, 0xF1#32,
        0x02#32, 0x22#32, 0x12#32, 0x32#32, 0x03#32, 0x13#32, 0x04#32, 0x14#32])

/-- R81: which words are illegal, and what the engine step of one does: it completes with ILLEGAL_COMMAND, and nothing but
STATUS and COUNT changes (no record is valid afterwards, R30). -/
def Obligations.IllegalWordsComplete : Prop :=
  (∀ c : Word, (∃ e, decode c = .error e) ↔
    (c &&& 0xF#32 = 0#32 ∨ 5 ≤ (c &&& 0xF#32).toNat ∨ c &&& 0xFFFFFF00#32 ≠ 0#32 ∨
      (c &&& 0xF#32 = 2#32 ∧ c &&& 0xC0#32 ≠ 0#32) ∨
      ((c &&& 0xF#32 = 3#32 ∨ c &&& 0xF#32 = 4#32) ∧ c &&& 0xE0#32 ≠ 0#32))) ∧
  (∀ (s : State) (v : Word), s.status.busy = false → (accept v s).cmd = v ∧ (accept v s).status.busy = true) ∧
  (∀ s : State, engineTurn s = true → (∃ e, decode s.cmd = .error e) → step s = .next (afterError .illegalCommand s))

/-- Words of R70 written out bit by bit read as the commands they stand for: one of each row, then illegal ones. -/
def Obligations.WordsReadAsWritten : Prop :=
  decode 0b00000000000000000000000010100001#32 = .ok (.crc8 true false true) ∧
  decode 0b00000000000000000000000011010001#32 = .ok (.crc16 false true true) ∧
  decode 0b00000000000000000000000000100010#32 = .ok (.search8 true) ∧
  decode 0b00000000000000000000000000010010#32 = .ok (.search16 false) ∧
  decode 0b00000000000000000000000000000011#32 = .ok .invert8 ∧
  decode 0b00000000000000000000000000010011#32 = .ok .invert16 ∧
  decode 0b00000000000000000000000000000100#32 = .ok .invrange8 ∧
  decode 0b00000000000000000000000000010100#32 = .ok .invrange16 ∧
  decode 0b00000000000000000000000100000001#32 = .error .reservedBits ∧
  decode 0b00000000000000000000000000011111#32 = .error .reservedOp ∧
  decode 0b00000000000000000000000000100011#32 = .error .optionNotTaken

/-! ### Steps (spec/10_state.md section 6, spec/20_memory.md section 6) -/

/-- R41: when it is the engine's turn and CMD holds a command's word, the step is that command's meaning; with a word
placed as accepted, the very next step is. -/
def Obligations.StepRunsDecodedCommand : Prop :=
  (∀ (s : State) (i : Instr), engineTurn s = true → decode s.cmd = .ok i → step s = exec i s) ∧
  (∀ (s : State) (i : Instr),
    step (s.withFetchWord 32 (encode i).toNat) = exec i (s.withFetchWord 32 (encode i).toNat))

/-- When it is not the engine's turn the step is the host's: its next event takes effect, or nothing if it has none; `poll`
comes back while BUSY is 1 (R84); a host that a bus error has stopped performs no access (R178). The order of the two agents
is the model's (log 2). -/
def Obligations.StepDeliversHostEvent : Prop :=
  ∀ s : State, engineTurn s = false →
    (s.agenda = [] → step s = .next s) ∧
    (∀ rest width addr n, s.hostFault = none → s.agenda = ⟨.read width addr, n⟩ :: rest →
      step s = .next (hostRead width addr (setAgenda rest s))) ∧
    (∀ rest width addr v n, s.hostFault = none → s.agenda = ⟨.write width addr v, n⟩ :: rest →
      step s = .next (hostWrite width addr v (setAgenda rest s))) ∧
    (∀ rest n, s.hostFault = none → s.agenda = ⟨.poll, n⟩ :: rest →
      step s = .next (if s.status.busy then setAgenda (⟨.poll, n - 1⟩ :: rest) (respond (.value (readReg .status s)) s)
        else respond (.value (readReg .status s)) (setAgenda rest s))) ∧
    (∀ rest n, s.agenda = ⟨.reset, n⟩ :: rest → step s = .next (resetBlock (setAgenda rest s))) ∧
    (∀ rest t, s.hostFault ≠ none → s.agenda = t :: rest → t.event ≠ .reset → step s = .next (setAgenda rest s))

/-- R189: an idle block does nothing until a CMD write, and all state survives idling. The host's accesses come from the
agenda (log 2). -/
def Obligations.IdleBlockWaitsForCommand : Prop :=
  (∀ s : State, s.status.busy = false → s.agenda = [] → step s = .next s) ∧
  (∀ s t : State, s.status.busy = false → step s = .next t → t.status.busy = true →
    ∃ v, nextEvent s = some (.write .w32 (s.params.base + 0x00) v) ∧ t.cmd = v)

/-- R43 in bounded form, under the schedules of log 2: from every busy state, after at most as many host moves as the agenda
lets go first, either BUSY is 0 or the engine step faults on an unwritten byte. -/
def Obligations.BusyEndsWithinLead : Prop :=
  ∀ s : State, s.status.busy = true →
    ∃ k, k ≤ leadTotal s.agenda + 1 ∧
      ((∃ t : State, Host.Core.run core k s = .next t ∧ t.status.busy = false) ∨
        (∃ j, Host.Core.run core k s = .fault (.unwrittenInput j)))

/-! ### Reset and invariants (spec/70_reset_and_hazards.md) -/

/-- R200: after reset every register reads 0 and the block is idle; a reset event does the same to every state, a command in
progress having no effect, and a command is accepted at once. -/
def Obligations.ResetClearsRegisters : Prop :=
  (∀ r, readReg r State.reset = 0#32) ∧ State.reset.status.busy = false ∧
  (∀ s : State, (∀ r, readReg r (resetBlock s) = 0#32) ∧ (resetBlock s).status.busy = false ∧
    ∀ v, hostWrite .w32 (s.params.base + 0x00) v (resetBlock s) = respond .written (accept v (resetBlock s)))

/-- R201, R202: after reset no byte of BUF has a value and no slot of RES does, so that a host read of a slot is a free
value. That an unwritten byte has no value is the model's reading (log 3). -/
def Obligations.ResetLeavesMemoriesUnspecified : Prop :=
  (∀ k, bufRead State.reset.buf k = none) ∧ State.reset.res = [] ∧
  (∀ s : State, (∀ k, bufRead (resetBlock s).buf k = none) ∧
    ∀ i, readRes i (resetBlock s) = readDraw (resetBlock s))

/-- The invariant holds at reset, with the opaque parameters. -/
def Obligations.ResetMeetsInvariant : Prop :=
  Inv State.reset ∧ WholeWords State.reset.buf

/-- Every step keeps the invariant: legal parameters, BUF canonical and inside BUF_CAP, RES the COUNT records, COUNT within
RESULT_CAP, and the flags consistent (R23, R30, R42, R53, R176). And no step, from any state, changes the parameters of the
instance (R7; that State carries them is log 1). -/
def Obligations.StepKeepsInvariant : Prop :=
  (∀ s t : State, Inv s → step s = .next t → Inv t) ∧
  (∀ s t : State, step s = .next t → t.params = s.params)

/-- Every step keeps BUF written in whole words (R53): so that writing the words 0 to ceil(n/4)-1 writes the n bytes a
command reads (R207). -/
def Obligations.StepKeepsWholeWords : Prop :=
  ∀ s t : State, s.params.Valid → WholeWords s.buf → step s = .next t → WholeWords t.buf

/-! ### The commands (spec/40_forward.md, 41_search.md, 42_inversion.md) -/

/-- R111: CRC8, whatever REF is, gives the bit-serial CRC of the transformed buffer, zero-extended, COUNT 0, ERR 0, BUSY 0,
DONE 1, and changes nothing else. -/
def Obligations.Crc8Result : Prop :=
  ∀ (s : State) (ref rb rf : Bool) (buf : List Byte), HasInput s buf →
    exec (.crc8 ref rb rf) s =
      .next (afterCrc ((crc (xform buf rb rf) (opPoly 8 s) (opSeed 8 s) (opXorOut 8 s)).setWidth 16) s)

/-- R112: CRC16, as CRC8 at width 16. -/
def Obligations.Crc16Result : Prop :=
  ∀ (s : State) (ref rb rf : Bool) (buf : List Byte), HasInput s buf →
    exec (.crc16 ref rb rf) s = .next (afterCrc (crc (xform buf rb rf) s.poly s.seed s.xorOut) s)

/-- R124, R122: SEARCH8, whatever REF is, records the pairs of the closed form when they fit RESULT_CAP, and ends with
RESOURCE_EXHAUSTED when they do not. -/
def Obligations.Search8Result : Prop :=
  ∀ (s : State) (ref : Bool) (buf : List Byte), HasInput s buf → SearchRangesValid 8 s →
    let l := searchPairs buf (opPoly 8 s) (opTarget 8 s) (opSeedStart 8 s) (opSeedEnd 8 s) (opXorStart 8 s) (opXorEnd 8 s)
    (l.length ≤ s.params.resultCap → exec (.search8 ref) s = .next (afterRecords (l.map record) s)) ∧
    (s.params.resultCap < l.length → exec (.search8 ref) s = .next (afterError .resourceExhausted s))

/-- R125, R122: SEARCH16, as SEARCH8 at width 16. -/
def Obligations.Search16Result : Prop :=
  ∀ (s : State) (ref : Bool) (buf : List Byte), HasInput s buf → SearchRangesValid 16 s →
    let l := searchPairs buf s.poly s.target s.seedStart s.seedEnd s.xorStart s.xorEnd
    (l.length ≤ s.params.resultCap → exec (.search16 ref) s = .next (afterRecords (l.map record) s)) ∧
    (s.params.resultCap < l.length → exec (.search16 ref) s = .next (afterError .resourceExhausted s))

/-- R148, R144: INVERT8 records exactly the seeds whose register after the buffer is the target, each once, with XOR 0, when
they fit RESULT_CAP, and ends with RESOURCE_EXHAUSTED when they do not. -/
def Obligations.Invert8Result : Prop :=
  ∀ (s : State) (buf : List Byte), HasInput s buf →
    ∃ g : List (BitVec 8), g.Nodup ∧ (∀ c, c ∈ g ↔ coreW buf (opPoly 8 s) c = opTarget 8 s) ∧
      (g.length ≤ s.params.resultCap →
        exec .invert8 s = .next (afterRecords (g.map fun c => c.setWidth 32) s)) ∧
      (s.params.resultCap < g.length → exec .invert8 s = .next (afterError .resourceExhausted s))

/-- R149, R144: INVERT16, as INVERT8 at width 16. -/
def Obligations.Invert16Result : Prop :=
  ∀ (s : State) (buf : List Byte), HasInput s buf →
    ∃ g : List (BitVec 16), g.Nodup ∧ (∀ c, c ∈ g ↔ coreW buf s.poly c = s.target) ∧
      (g.length ≤ s.params.resultCap →
        exec .invert16 s = .next (afterRecords (g.map fun c => c.setWidth 32) s)) ∧
      (s.params.resultCap < g.length → exec .invert16 s = .next (afterError .resourceExhausted s))

/-- R150, R147: INVRANGE8 records exactly the pairs of a seed and an output XOR of the range whose CRC is the target, each
once, output XORs ascending, when they fit RESULT_CAP, and ends with RESOURCE_EXHAUSTED when they do not. -/
def Obligations.Invrange8Result : Prop :=
  ∀ (s : State) (buf : List Byte), HasInput s buf → XorRangeValid 8 s →
    ∃ l : List (BitVec 8 × BitVec 8), l.Nodup ∧ (l.map Prod.snd).Pairwise (· ≤ ·) ∧
      (∀ c x, (c, x) ∈ l ↔
        opXorStart 8 s ≤ x ∧ x ≤ opXorEnd 8 s ∧ crc buf (opPoly 8 s) c x = opTarget 8 s) ∧
      (l.length ≤ s.params.resultCap → exec .invrange8 s = .next (afterRecords (l.map record) s)) ∧
      (s.params.resultCap < l.length → exec .invrange8 s = .next (afterError .resourceExhausted s))

/-- R151, R147: INVRANGE16, as INVRANGE8 at width 16. -/
def Obligations.Invrange16Result : Prop :=
  ∀ (s : State) (buf : List Byte), HasInput s buf → XorRangeValid 16 s →
    ∃ l : List (BitVec 16 × BitVec 16), l.Nodup ∧ (l.map Prod.snd).Pairwise (· ≤ ·) ∧
      (∀ c x, (c, x) ∈ l ↔ s.xorStart ≤ x ∧ x ≤ s.xorEnd ∧ crc buf s.poly c x = s.target) ∧
      (l.length ≤ s.params.resultCap → exec .invrange16 s = .next (afterRecords (l.map record) s)) ∧
      (s.params.resultCap < l.length → exec .invrange16 s = .next (afterError .resourceExhausted s))

/-- R172, R42: a legal command whose LEN fits, whose ranges are valid and whose input is written completes, without an error
or with RESOURCE_EXHAUSTED; without one if it is a CRC command or RESULT_CAP is at least 2^W. -/
def Obligations.EveryCommandCompletes : Prop :=
  ∀ (i : Instr) (s : State) (buf : List Byte), HasInput s buf → RangesValid i s →
    ∃ t, exec i s = .next t ∧ t.status.busy = false ∧ t.status.done = true ∧
      (t.status.err = none ∨ t.status.err = some .resourceExhausted) ∧
      (IsCrc i ∨ 2 ^ (commandWidth i) ≤ s.params.resultCap → t.status.err = none)

/-- The frame of all eight commands (R32, R42, R45, R54): a command that answers a next state changes STATUS, COUNT, RES and,
for CRC8 and CRC16 alone, CRC_OUT. CMD, the nine parameter registers, WERR, every byte of BUF, the parameters of the
instance and the host agent are as before. -/
def Obligations.CommandFrame : Prop :=
  ∀ (i : Instr) (s t : State), exec i s = .next t →
    t.cmd = s.cmd ∧ t.poly = s.poly ∧ t.seed = s.seed ∧ t.xorOut = s.xorOut ∧ t.target = s.target ∧
    t.seedStart = s.seedStart ∧ t.seedEnd = s.seedEnd ∧ t.xorStart = s.xorStart ∧ t.xorEnd = s.xorEnd ∧
    t.len = s.len ∧ (∀ k, bufRead t.buf k = bufRead s.buf k) ∧ t.status.werr = s.status.werr ∧
    t.status.busy = false ∧ t.status.done = true ∧ (¬ IsCrc i → t.crcOut = s.crcOut) ∧
    t.params = s.params ∧ t.agenda = s.agenda ∧ t.responses = s.responses ∧ t.hostFault = s.hostFault ∧
    t.draws = s.draws

/-- R183, R33: the outcome of an engine step is a function of CMD, the parameter registers and the bytes below LEN (and of the
capacities, R7). Two states that agree on them get the same fault, or the same error, COUNT and records, and the same CRC_OUT
after a CRC command without an error whatever it was before, and after any other if it was the same before; whatever else
differs, so a retry ends the same way. -/
def Obligations.OutcomeFromInputsAlone : Prop :=
  ∀ s t : State, SameInputs s t → s.cmd = t.cmd →
    (∀ a, engineStep s = .next a → ∃ b, engineStep t = .next b ∧ a.status.err = b.status.err ∧ a.count = b.count ∧
      a.res = b.res ∧ (s.crcOut = t.crcOut → a.crcOut = b.crcOut) ∧
      (∀ i, decode s.cmd = .ok i → IsCrc i → a.status.err = none → a.crcOut = b.crcOut)) ∧
    (∀ f, engineStep s = .fault f → engineStep t = .fault f)

/-! ### Errors (spec/60_exceptions.md section 1) -/

/-- R174: every command whose LEN is above BUF_CAP ends with BUFFER_LENGTH, and none does otherwise; LEN 0 never does. -/
def Obligations.LengthAboveCapacityIsError : Prop :=
  (∀ (i : Instr) (s : State), s.params.bufCap < s.len.toNat → exec i s = .next (afterError .bufferLength s)) ∧
  (∀ (i : Instr) (s t : State), exec i s = .next t → t.status.err = some .bufferLength →
    s.params.bufCap < s.len.toNat ∧ s.len ≠ 0)

/-- R175, R172: with LEN within BUF_CAP, a command ends with INVALID_RANGE exactly when a range it reads, cut to its width,
has its start above its end; a range of one value holds that value and nothing else. That it does so over unwritten input
too is the model's reading of R172 (log 9). -/
def Obligations.InvertedRangeIsError : Prop :=
  (∀ (i : Instr) (s : State), s.len.toNat ≤ s.params.bufCap → ¬ RangesValid i s →
    exec i s = .next (afterError .invalidRange s)) ∧
  (∀ (i : Instr) (s t : State), exec i s = .next t → t.status.err = some .invalidRange → ¬ RangesValid i s) ∧
  (∀ w : Nat, w = 8 ∨ w = 16 → ∀ a : BitVec w, range a a = [a])

/-- R67, R172: a command faults exactly when its word, LEN and ranges pass and a byte of its buffer is not written; the fault
names one such byte. That the checks come first is the model's reading of R172 (log 9). -/
def Obligations.UnwrittenInputFaults : Prop :=
  (∀ (i : Instr) (s : State) (k : Nat), s.len.toNat ≤ s.params.bufCap → RangesValid i s → k < s.len.toNat →
    bufRead s.buf k = none → ∃ j, j ≤ k ∧ bufRead s.buf j = none ∧ exec i s = .fault (.unwrittenInput j)) ∧
  (∀ (i : Instr) (s : State) (f : Fault), exec i s = .fault f →
    ∃ k, f = .unwrittenInput k ∧ k < s.len.toNat ∧ bufRead s.buf k = none ∧ s.len.toNat ≤ s.params.bufCap ∧
      RangesValid i s)

/-- R176: after RESOURCE_EXHAUSTED COUNT is 0 and no record is valid; a CRC command never ends with it; and with RESULT_CAP at
least 2^W no command of width W does. -/
def Obligations.ExhaustionNeedsSmallResults : Prop :=
  (∀ (i : Instr) (s t : State), exec i s = .next t → t.status.err = some .resourceExhausted →
    t.count = 0 ∧ t.res = [] ∧ ¬ IsCrc i) ∧
  (∀ (i : Instr) (s t : State), exec i s = .next t → 2 ^ (commandWidth i) ≤ s.params.resultCap →
    t.status.err ≠ some .resourceExhausted)

/-! ### The forward engine (spec/40_forward.md) -/

/-- R105, R103: the table's entry for `i` is eight shifts of `i` in the high byte, the byte step from register 0; the
table-driven byte step equals the bit-serial one at both widths; and so a CRC or SEARCH command gives the same outcome with
REF 0 and REF 1. -/
def Obligations.TableFormEqualsBitSerial : Prop :=
  (∀ w : Nat, w = 8 ∨ w = 16 → ∀ (p : BitVec w) (i : Byte),
    tableEntry p i = fwdByte 0#w i p ∧
    tableEntry p i = shiftStep (shiftStep (shiftStep (shiftStep (shiftStep (shiftStep (shiftStep (shiftStep
      (i.setWidth w <<< (w - 8)) p) p) p) p) p) p) p) p) ∧
  (∀ w : Nat, w = 8 ∨ w = 16 → ∀ (r p : BitVec w) (b : Byte), fwdByteTab r b p = fwdByte r b p) ∧
  (∀ (s : State) (rb rf : Bool), exec (.crc8 false rb rf) s = exec (.crc8 true rb rf) s) ∧
  (∀ (s : State) (rb rf : Bool), exec (.crc16 false rb rf) s = exec (.crc16 true rb rf) s) ∧
  (∀ s : State, exec (.search8 false) s = exec (.search8 true) s) ∧
  (∀ s : State, exec (.search16 false) s = exec (.search16 true) s)

/-- R106: a byte step is eight bit steps, the bits entering from b[7] to b[0]; a bit step shifts in a 0 and XORs the
polynomial when the feedback bit, the top bit XOR the data bit, is 1. -/
def Obligations.ByteStepIsEightBitSteps : Prop :=
  (∀ w : Nat, w = 8 ∨ w = 16 → ∀ (r p : BitVec w) (b : Byte),
    fwdByte r b p = fbit (fbit (fbit (fbit (fbit (fbit (fbit (fbit r (b.getLsbD 7) p) (b.getLsbD 6) p) (b.getLsbD 5) p)
      (b.getLsbD 4) p) (b.getLsbD 3) p) (b.getLsbD 2) p) (b.getLsbD 1) p) (b.getLsbD 0) p) ∧
  (∀ w : Nat, w = 8 ∨ w = 16 → ∀ (r p : BitVec w) (d : Bool),
    fbit r d p = (if r.getLsbD (w - 1) = d then 0#w else p) ^^^ (r <<< 1))

/-- R107: RB reverses the whole list, RF reflects each byte, bit i of the reflected byte being bit 7 - i. -/
def Obligations.TransformReversesAndReflects : Prop :=
  (∀ (buf : List Byte) (rf : Bool) (k : Nat), k < buf.length →
    (xform buf true rf)[k]? = (xform buf false rf)[buf.length - 1 - k]?) ∧
  (∀ (buf : List Byte) (k : Nat), (xform buf false true)[k]? = buf[k]?.map reflect8) ∧
  (∀ (buf : List Byte) (rb rf : Bool), (xform buf rb rf).length = buf.length) ∧
  (∀ (b : Byte) (i : Nat), i < 8 → (reflect8 b).getLsbD i = b.getLsbD (7 - i))

/-- R108: reversing twice or reflecting twice gives the buffer back, the two commute, and no option is no change. -/
def Obligations.TransformLaws : Prop :=
  (∀ c : List Byte, xform (xform c true false) true false = c) ∧
  (∀ b : Byte, reflect8 (reflect8 b) = b) ∧
  (∀ c : List Byte, xform (xform c false true) false true = c) ∧
  (∀ c : List Byte, xform (xform c true false) false true = xform (xform c false true) true false) ∧
  (∀ c : List Byte, xform c false false = c)

/-- R109: an empty buffer leaves the seed, so the CRC is seed XOR output XOR for every polynomial; a CRC command with LEN 0
gives it. -/
def Obligations.EmptyBufferGivesSeedXorOut : Prop :=
  (∀ w : Nat, w = 8 ∨ w = 16 → ∀ p s x : BitVec w, coreW [] p s = s ∧ crc [] p s x = s ^^^ x) ∧
  (∀ (s : State) (ref rb rf : Bool), s.len = 0 →
    exec (.crc8 ref rb rf) s = .next (afterCrc ((opSeed 8 s ^^^ opXorOut 8 s).setWidth 16) s) ∧
    exec (.crc16 ref rb rf) s = .next (afterCrc (s.seed ^^^ s.xorOut) s))

/-- R110: the register after a buffer is affine in the seed, its linear part that of as many zero bytes; for an odd
polynomial the map from seeds is a bijection, and for an even one and a non-empty buffer it is not. -/
def Obligations.CoreIsAffineInSeed : Prop :=
  ∀ w : Nat, w = 8 ∨ w = 16 → ∀ (buf : List Byte) (p : BitVec w),
    (∀ s1 s2 : BitVec w,
      coreW buf p (s1 ^^^ s2) = coreW buf p s1 ^^^ coreW (List.replicate buf.length (0#8)) p s2) ∧
    (∀ s1 s2 : BitVec w, coreW (List.replicate buf.length (0#8)) p (s1 ^^^ s2) =
      coreW (List.replicate buf.length (0#8)) p s1 ^^^ coreW (List.replicate buf.length (0#8)) p s2) ∧
    (p.getLsbD 0 = true → Function.Bijective fun s => coreW buf p s) ∧
    (p.getLsbD 0 = false → buf ≠ [] → ¬ Function.Bijective fun s => coreW buf p s)

/-- The corner cases of R111 and R112 for the polynomial 0: there is no feedback. -/
def Obligations.ZeroPolynomialHasNoFeedback : Prop :=
  (∀ (r : BitVec 8) (b : Byte), fwdByte r b 0#8 = 0#8) ∧
  (∀ (r : BitVec 16) (b : Byte), fwdByte r b 0#16 = r <<< 8) ∧
  (∀ (buf : List Byte) (s x : BitVec 8), buf ≠ [] → crc buf 0#8 s x = x) ∧
  (∀ (buf : List Byte) (s x : BitVec 16), 2 ≤ buf.length → crc buf 0#16 s x = x)

/-! ### The range search (spec/41_search.md) -/

/-- R120: a valid range is iterated from its start to its end, each value once, ascending, the end included and the walk
stopping there even at the maximum. -/
def Obligations.RangeVisitsEachValueOnce : Prop :=
  ∀ w : Nat, w = 8 ∨ w = 16 → ∀ a b : BitVec w, a ≤ b →
    (range a b).length = b.toNat - a.toNat + 1 ∧
    (∀ k, k ≤ b.toNat - a.toNat → (range a b)[k]? = some (a + BitVec.ofNat w k)) ∧
    (∀ v, v ∈ range a b ↔ a ≤ v ∧ v ≤ b) ∧
    (range a b).Pairwise (· < ·)

/-- R122: a search over valid ranges, by either form, is its closed form, with at most one match a seed. -/
def Obligations.SearchMatchesOncePerSeed : Prop :=
  ∀ w : Nat, w = 8 ∨ w = 16 → ∀ (ref : Bool) (buf : List Byte) (p t sa se xa xe : BitVec w), sa ≤ se → xa ≤ xe →
    (∀ s x, (crc buf p s x = t ↔ x = coreW buf p s ^^^ t)) ∧
    search ref buf p t sa se xa xe = searchPairs buf p t sa se xa xe ∧
    (search ref buf p t sa se xa xe).length ≤ se.toNat - sa.toNat + 1 ∧
    se.toNat - sa.toNat + 1 ≤ 2 ^ w

/-- R123: splitting the seed range splits the records in order; splitting the output XOR range gives the same records. -/
def Obligations.SearchSplitsBySeed : Prop :=
  ∀ w : Nat, w = 8 ∨ w = 16 → ∀ (ref : Bool) (buf : List Byte) (p t sa m se xa xe : BitVec w),
    (sa ≤ m → m < se →
      search ref buf p t sa se xa xe = search ref buf p t sa m xa xe ++ search ref buf p t (m + 1) se xa xe) ∧
    (xa ≤ m → m < xe → ∀ r, r ∈ search ref buf p t sa se xa xe ↔
      r ∈ search ref buf p t sa se xa m ∨ r ∈ search ref buf p t sa se (m + 1) xe)

/-! ### The inversion engine (spec/42_inversion.md) -/

/-- R140: the reverse bit step, hypothesis A before B, gives exactly the values whose bit step is the given one. -/
def Obligations.ReverseStepIsExact : Prop :=
  ∀ w : Nat, w = 8 ∨ w = 16 → ∀ (r' p : BitVec w) (d : Bool),
    (∀ q, q ∈ rev r' d p ↔ fbit q d p = r') ∧
    rev r' d p =
      (if r'.getLsbD 0 = false then [(r' >>> 1) ||| (if d then BitVec.twoPow w (w - 1) else 0#w)] else []) ++
      (if (r' ^^^ p).getLsbD 0 = false then [((r' ^^^ p) >>> 1) ||| (if d then 0#w else BitVec.twoPow w (w - 1))] else [])

/-- R141: with an odd polynomial every value has exactly one predecessor; with an even one an odd value has none and an even
value has two, which differ in their top bit. -/
def Obligations.PredecessorCounts : Prop :=
  ∀ w : Nat, w = 8 ∨ w = 16 → ∀ (r' p : BitVec w) (d : Bool),
    (p.getLsbD 0 = true → (rev r' d p).length = 1) ∧
    (p.getLsbD 0 = false → r'.getLsbD 0 = true → rev r' d p = []) ∧
    (p.getLsbD 0 = false → r'.getLsbD 0 = false → ∃ q1 q2, rev r' d p = [q1, q2] ∧ q1.msb ≠ q2.msb)

/-- R144: the walk never overflows and holds every seed that reaches the target, each once, and no other value; of an empty
buffer, the target alone; one value for an odd polynomial, an even number for an even one and a non-empty buffer; and a
generation step makes no duplicate, so that no generation holds one. -/
def Obligations.InversionIsExact : Prop :=
  ∀ w : Nat, w = 8 ∨ w = 16 → ∀ (buf : List Byte) (p t : BitVec w),
    ∃ g, invert buf p t = some g ∧ g.Nodup ∧ (∀ s, s ∈ g ↔ coreW buf p s = t) ∧
      (buf = [] → g = [t]) ∧ g.length ≤ 2 ^ w ∧ 2 ^ w ≤ Config.candCap ∧
      (p.getLsbD 0 = true → g.length = 1) ∧
      (p.getLsbD 0 = false → buf ≠ [] → g.length % 2 = 0) ∧
      (∀ s, ∃ g', invert buf p (coreW buf p s) = some g' ∧ s ∈ g') ∧
      ((∀ s, coreW buf p s ≠ t) → g = []) ∧
      (∀ (h : List (BitVec w)) (d : Bool), h.Nodup → (genStep h d p).Nodup)

/-- R147: the records of an inversion over a range: the pairs that give the observed CRC, each once; one a value for an odd
polynomial, in increasing XOR; at most 2^W, and 2^W over the full range, each seed once; over [0, 0], those of INVERT. -/
def Obligations.InversionRangeConsequences : Prop :=
  ∀ w : Nat, w = 8 ∨ w = 16 → ∀ (buf : List Byte) (p t : BitVec w),
    (∀ xa xe, xa ≤ xe → ∃ l, invrange buf p t xa xe = some l ∧ l.Nodup ∧
      (∀ c x, (c, x) ∈ l ↔ crc buf p c x = t ∧ xa ≤ x ∧ x ≤ xe) ∧
      (p.getLsbD 0 = true → l.map Prod.snd = range xa xe ∧ l.length = xe.toNat - xa.toNat + 1) ∧
      l.length ≤ 2 ^ w) ∧
    (∃ l, invrange buf p t 0#w (BitVec.allOnes w) = some l ∧ l.length = 2 ^ w ∧ (l.map Prod.fst).Nodup ∧
      ∀ c x, (c, x) ∈ l ↔ x = coreW buf p c ^^^ t) ∧
    (invrange buf p t 0#w 0#w = invertRecords (invert buf p t)) ∧
    (∀ (i : Instr) (s s' : State), (i = .invrange8 ∨ i = .invrange16) → s.params.resultCap = 2 ^ (commandWidth i) →
      exec i s = .next s' → s'.status.err ≠ some .resourceExhausted)

/-! ### Host access (spec/20_memory.md, 60_exceptions.md section 2) -/

/-- R40: a CMD write while BUSY is 0 is accepted, whatever the word; one while BUSY is 1 is dropped; and nothing the host does
cancels an accepted command. -/
def Obligations.CommandAcceptance : Prop :=
  (∀ (s : State) (v : Word), s.status.busy = false →
    hostWrite .w32 (s.params.base + 0x00) v s = respond .written
      { s with cmd := v, status := { s.status with busy := true, done := false, err := none } }) ∧
  (∀ (s : State) (v : Word), s.status.busy = true →
    hostWrite .w32 (s.params.base + 0x00) v s = respond .written { s with status := { s.status with werr := true } }) ∧
  (∀ (s : State) (t : Turn), s.status.busy = true → t.event ≠ .reset →
    (deliver t s).status.busy = true ∧ (deliver t s).cmd = s.cmd)

/-- R33, R57, R64: while BUSY is 1 nothing the host does changes what the pending command reads, nor CRC_OUT, COUNT, RES,
DONE or ERR. -/
def Obligations.BusyFreezesInputs : Prop :=
  ∀ (s : State) (t : Turn), s.status.busy = true → t.event ≠ .reset →
    SameCommand s (deliver t s) ∧ (deliver t s).crcOut = s.crcOut ∧ (deliver t s).count = s.count ∧
    (deliver t s).res = s.res ∧ (deliver t s).status.done = s.status.done ∧ (deliver t s).status.err = s.status.err

/-- R57: while BUSY is 1 a write to any register but STATUS, or to BUF, changes nothing but WERR; a write to STATUS is
performed whatever BUSY is; while BUSY is 0 every write is. -/
def Obligations.WritesWhileBusyAreDropped : Prop :=
  (∀ (s : State) (v : Word), s.params.Valid → s.status.busy = true →
    (∀ r, r ≠ .status → hostWrite .w32 (s.params.base + regOffset r) v s =
      respond .written { s with status := { s.status with werr := true } }) ∧
    (∀ k, 4 * k < s.params.bufCap → hostWrite .w32 (s.params.base + 0x10000 + 4 * k) v s =
      respond .written { s with status := { s.status with werr := true } })) ∧
  (∀ (s : State) (v : Word), hostWrite .w32 (s.params.base + 0x04) v s =
    respond .written { s with status := { s.status with werr := s.status.werr && !v.getLsbD 2 } }) ∧
  (∀ (s : State) (v : Word), s.params.Valid → s.status.busy = false →
    (∀ r, hostWrite .w32 (s.params.base + regOffset r) v s = respond .written (writeReg r v s)) ∧
    (∀ k, 4 * k < s.params.bufCap → hostWrite .w32 (s.params.base + 0x10000 + 4 * k) v s =
      respond .written { s with buf := bufWriteWord s.buf (4 * k) v }))

/-- R58, R31: while BUSY is 1 a read of CRC_OUT, COUNT or a RES slot answers a free value and every other register its current
value, as does a written BUF word; while BUSY is 0 every register's read answers what it holds (R32); no read changes
anything of the block at any time. That the free value has all 32 bits free is the model's choice
(log 8). -/
def Obligations.ReadsAnswerByBusyRule : Prop :=
  (∀ s : State, s.params.Valid → s.status.busy = true →
    (∀ r, r = .crcOut ∨ r = .count → hostRead .w32 (s.params.base + regOffset r) s = readDraw s) ∧
    (∀ i, i < s.params.resultCap → hostRead .w32 (s.params.base + 0x40000 + 4 * i) s = readDraw s) ∧
    (∀ r, r ≠ .crcOut → r ≠ .count →
      hostRead .w32 (s.params.base + regOffset r) s = respond (.value (readReg r s)) s) ∧
    (∀ k b0 b1 b2 b3, 4 * k < s.params.bufCap → bufRead s.buf (4 * k) = some b0 →
      bufRead s.buf (4 * k + 1) = some b1 → bufRead s.buf (4 * k + 2) = some b2 → bufRead s.buf (4 * k + 3) = some b3 →
      hostRead .w32 (s.params.base + 0x10000 + 4 * k) s = respond (.value (b3 ++ b2 ++ b1 ++ b0)) s)) ∧
  (∀ (s : State) (r : RegName), s.status.busy = false →
    hostRead .w32 (s.params.base + regOffset r) s = respond (.value (readReg r s)) s) ∧
  (∀ (s : State) (width : AccessWidth) (addr : Nat), SameBlock s (hostRead width addr s))

/-- R32: commands keep the nine parameter registers, and a read returns the implemented bits last written, those above a
command's width included: a write of 0x0107 to POLY reads back as 0x0107. -/
def Obligations.ParameterRegistersKeepValues : Prop :=
  (∀ (i : Instr) (s t : State) (r : RegName), r ∈ parameterRegs → exec i s = .next t → readReg r t = readReg r s) ∧
  (∀ (s : State) (v : Word) (r : RegName), r ∈ parameterRegs → readReg r (writeReg r v s) = v &&& implemented r) ∧
  (∀ (s : State) (v : Word) (r r' : RegName), r ∈ parameterRegs → r' ≠ r →
    readReg r' (writeReg r v s) = readReg r' s) ∧
  (∀ s : State, readReg .poly (writeReg .poly 0x00000107#32 s) = 0x00000107#32)

/-- R37, R22: the reserved bits of every register but CMD hold 0 and a write to them is ignored; CMD keeps the word as
written, and a reserved bit in it makes the command illegal. (A busy read of CRC_OUT or COUNT is a free value in all its
bits, log 8.) -/
def Obligations.ReservedBits : Prop :=
  (∀ (s : State) (r : RegName), readReg r s &&& ~~~ implemented r = 0#32) ∧
  (∀ (s : State) (v : Word) (r : RegName), r ≠ .cmd → writeReg r v s = writeReg r (v &&& implemented r) s) ∧
  (∀ (s : State) (v : Word), readReg .cmd (writeReg .cmd v s) = v) ∧
  (∀ v : Word, v.extractLsb' 8 24 ≠ 0#24 → decode v = .error .reservedBits)

/-- R23, R171: the bits of STATUS with the codes of ERR, and a write to it, which clears WERR when bit 2 is set and does nothing
else. -/
def Obligations.StatusBits : Prop :=
  (∀ s : State, (readReg .status s).getLsbD 0 = s.status.busy ∧ (readReg .status s).getLsbD 1 = s.status.done ∧
    (readReg .status s).getLsbD 2 = s.status.werr ∧ (readReg .status s).getLsbD 3 = false ∧
    (readReg .status s).extractLsb' 7 25 = 0#25) ∧
  (∀ s : State, s.status.err = none → (readReg .status s).extractLsb' 4 3 = 0#3) ∧
  (∀ s : State, s.status.err = some .illegalCommand → (readReg .status s).extractLsb' 4 3 = 1#3) ∧
  (∀ s : State, s.status.err = some .invalidRange → (readReg .status s).extractLsb' 4 3 = 2#3) ∧
  (∀ s : State, s.status.err = some .bufferLength → (readReg .status s).extractLsb' 4 3 = 3#3) ∧
  (∀ s : State, s.status.err = some .resourceExhausted → (readReg .status s).extractLsb' 4 3 = 4#3) ∧
  (∀ (s : State) (v : Word), v.getLsbD 2 = true →
    writeReg .status v s = { s with status := { s.status with werr := false } }) ∧
  (∀ (s : State) (v : Word), v.getLsbD 2 = false → writeReg .status v s = s)

/-- R45: BUSY, DONE and ERR change only by the acceptance of a command, its completion, or reset; WERR is set only by a write
that R57 drops for BUSY, of 32 bits to a register other than STATUS or to a BUF word, and cleared only by a write of STATUS
bit 2 or reset; and no command's outcome depends on STATUS. -/
def Obligations.FlagsChangeOnlyByRule : Prop :=
  (∀ s t : State, step s = .next t →
    (t.status.busy ≠ s.status.busy ∨ t.status.done ≠ s.status.done ∨ t.status.err ≠ s.status.err) →
    engineTurn s = true ∨ nextEvent s = some .reset ∨
      (s.status.busy = false ∧ ∃ v, nextEvent s = some (.write .w32 (s.params.base + 0x00) v))) ∧
  (∀ s t : State, step s = .next t → s.status.werr = false → t.status.werr = true →
    s.status.busy = true ∧
      ((∃ r v, r ≠ .status ∧ nextEvent s = some (.write .w32 (s.params.base + regOffset r) v)) ∨
        (∃ k v, 4 * k < s.params.bufCap ∧ nextEvent s = some (.write .w32 (s.params.base + 0x10000 + 4 * k) v)))) ∧
  (∀ s t : State, step s = .next t → s.status.werr = true → t.status.werr = false →
    nextEvent s = some .reset ∨
      ∃ v, nextEvent s = some (.write .w32 (s.params.base + 0x04) v) ∧ v.getLsbD 2 = true) ∧
  (∀ (i : Instr) (s t : State) (st : Status), exec i s = .next t →
    exec i { s with status := st } = .next { t with status := { t.status with werr := st.werr } }) ∧
  (∀ (i : Instr) (s : State) (st : Status) (f : Fault), exec i s = .fault f →
    exec i { s with status := st } = .fault f)

/-- R179: a dropped write is no bus error: it completes normally and sets WERR; WERR stays 1 until the host writes 1 to STATUS
bit 2 or the block is reset; no command clears it. -/
def Obligations.DroppedWriteCompletes : Prop :=
  (∀ (s : State) (v : Word) (r : RegName), s.status.busy = true → r ≠ .status →
    (hostWrite .w32 (s.params.base + regOffset r) v s).responses = .written :: s.responses ∧
    (hostWrite .w32 (s.params.base + regOffset r) v s).hostFault = s.hostFault ∧
    (hostWrite .w32 (s.params.base + regOffset r) v s).status.werr = true) ∧
  (∀ (s : State) (v : Word) (k : Nat), s.params.Valid → s.status.busy = true → 4 * k < s.params.bufCap →
    (hostWrite .w32 (s.params.base + 0x10000 + 4 * k) v s).responses = .written :: s.responses ∧
    (hostWrite .w32 (s.params.base + 0x10000 + 4 * k) v s).hostFault = s.hostFault ∧
    (hostWrite .w32 (s.params.base + 0x10000 + 4 * k) v s).status.werr = true) ∧
  (∀ s t : State, step s = .next t → s.status.werr = true → t.status.werr = true ∨ nextEvent s = some .reset ∨
    ∃ v, nextEvent s = some (.write .w32 (s.params.base + 0x04) v) ∧ v.getLsbD 2 = true) ∧
  (∀ (i : Instr) (s t : State), exec i s = .next t → t.status.werr = s.status.werr)

/-- R29: CRC_OUT holds the result of the last successful CRC command, zero-extended: only such a command writes it (and
reset, R200), a host write to it is ignored, and after a CRC8 its bits [15:8] are 0. -/
def Obligations.CrcOutWrittenBySuccessfulCrcOnly : Prop :=
  (∀ s t : State, step s = .next t → t.crcOut ≠ s.crcOut →
    nextEvent s = some .reset ∨
      (engineTurn s = true ∧ t.status.err = none ∧ ∃ i, decode s.cmd = .ok i ∧ IsCrc i)) ∧
  (∀ (s : State) (v : Word), writeReg .crcOut v s = s) ∧
  (∀ (s t : State) (ref rb rf : Bool), exec (.crc8 ref rb rf) s = .next t → t.status.err = none →
    t.crcOut.toNat < 256)

/-- R54: the engine never writes BUF, and BUF changes only where a host write to its window, or reset, changes it. -/
def Obligations.EngineNeverWritesBuf : Prop :=
  (∀ s t : State, engineTurn s = true → step s = .next t → t.buf = s.buf) ∧
  (∀ s t : State, s.params.Valid → step s = .next t → t.buf ≠ s.buf →
    nextEvent s = some .reset ∨ ∃ k v, 4 * k < s.params.bufCap ∧ s.status.busy = false ∧
      nextEvent s = some (.write .w32 (s.params.base + 0x10000 + 4 * k) v) ∧ t.buf = bufWriteWord s.buf (4 * k) v)

/-- R53: a write to BUF word k sets its four bytes, little-endian, and no other byte; the word reads back. -/
def Obligations.BufWordLittleEndian : Prop :=
  ∀ (m : List Host.Cell) (k : Nat) (v d : Word),
    bufRead (bufWriteWord m (4 * k) v) (4 * k) = some (v.extractLsb' 0 8) ∧
    bufRead (bufWriteWord m (4 * k) v) (4 * k + 1) = some (v.extractLsb' 8 8) ∧
    bufRead (bufWriteWord m (4 * k) v) (4 * k + 2) = some (v.extractLsb' 16 8) ∧
    bufRead (bufWriteWord m (4 * k) v) (4 * k + 3) = some (v.extractLsb' 24 8) ∧
    (∀ j, j < 4 * k ∨ 4 * k + 4 ≤ j → bufRead (bufWriteWord m (4 * k) v) j = bufRead m j) ∧
    bufReadWord (bufWriteWord m (4 * k) v) (4 * k) d = v

/-- R67: a host read of a BUF word answers, in each byte lane, the byte if it is written and the free value if not. -/
def Obligations.UnwrittenLanesReadFree : Prop :=
  ∀ (s : State) (k j : Nat), s.params.Valid → 4 * k < s.params.bufCap → j < 4 →
    ∃ v, (hostRead .w32 (s.params.base + 0x10000 + 4 * k) s).responses = .value v :: s.responses ∧
      (∀ b, bufRead s.buf (4 * k + j) = some b → v.extractLsb' (8 * j) 8 = b) ∧
      (bufRead s.buf (4 * k + j) = none → v.extractLsb' (8 * j) 8 = (Config.draw s.draws).extractLsb' (8 * j) 8 ∧
        (hostRead .w32 (s.params.base + 0x10000 + 4 * k) s).draws = s.draws + 1)

/-- R55: a read of slot i answers the record written there by the last completed command when i < COUNT, and a free value at
or beyond COUNT; a host write to RES is a bus error; only a completing command writes RES (and reset, R202). -/
def Obligations.ResultSlots : Prop :=
  (∀ (s : State) (i : Nat), Inv s → s.status.busy = false → i < s.params.resultCap →
    (i < s.count.toNat → ∃ v, s.res[i]? = some v ∧
      hostRead .w32 (s.params.base + 0x40000 + 4 * i) s = respond (.value v) s) ∧
    (s.count.toNat ≤ i → hostRead .w32 (s.params.base + 0x40000 + 4 * i) s = readDraw s)) ∧
  (∀ (s : State) (i : Nat) (v : Word), s.params.Valid → i < s.params.resultCap →
    hostWrite .w32 (s.params.base + 0x40000 + 4 * i) v s = busError (s.params.base + 0x40000 + 4 * i) s) ∧
  (∀ s t : State, step s = .next t → t.res ≠ s.res → engineTurn s = true ∨ nextEvent s = some .reset)

/-- R56: a record holds its value in bits [15:0] and its output XOR in bits [31:16]; at width 8 bits [15:8] and [31:24]
are 0. -/
def Obligations.RecordLayout : Prop :=
  (∀ a x : BitVec 16, (record (a, x)).extractLsb' 0 16 = a ∧ (record (a, x)).extractLsb' 16 16 = x) ∧
  (∀ a x : BitVec 8, (record (a, x)).extractLsb' 0 8 = a ∧ (record (a, x)).extractLsb' 8 8 = 0#8 ∧
    (record (a, x)).extractLsb' 16 8 = x ∧ (record (a, x)).extractLsb' 24 8 = 0#8)

/-- R178, R180: when an access inside the block ends with a bus error, whatever BUSY is; that it then changes nothing of the
block, WERR included; and that the host agent's fault is never cleared. -/
def Obligations.BusErrors : Prop :=
  (∀ (s : State) (width : AccessWidth) (off : Nat) (v : Word), s.params.Valid → off ≤ 0xFFFFF →
    (BadAccess s.params width off →
      hostRead width (s.params.base + off) s = busError (s.params.base + off) s ∧
      hostWrite width (s.params.base + off) v s = busError (s.params.base + off) s) ∧
    (0x40000 ≤ off → off ≤ 0x7FFFF →
      hostWrite width (s.params.base + off) v s = busError (s.params.base + off) s) ∧
    (¬ BadAccess s.params width off →
      (hostRead width (s.params.base + off) s).hostFault = s.hostFault ∧
      (off < 0x40000 → (hostWrite width (s.params.base + off) v s).hostFault = s.hostFault))) ∧
  (∀ (s : State) (addr : Nat), SameBlock s (busError addr s) ∧ (busError addr s).hostFault = some addr ∧
    (busError addr s).responses = .busError addr :: s.responses) ∧
  (∀ s t : State, s.hostFault ≠ none → step s = .next t → t.hostFault = s.hostFault)

/-- R50: the block does not respond to an address outside its range, and nothing of it changes. -/
def Obligations.OutsideRangeNoResponse : Prop :=
  ∀ (s : State) (width : AccessWidth) (addr : Nat) (v : Word),
    addr < s.params.base ∨ s.params.base + 0xFFFFF < addr →
      hostRead width addr s = respond (.noResponse addr) s ∧ hostWrite width addr v s = respond (.noResponse addr) s

/-- R84, R204, R207: `wrbuf` on an idle block leaves LEN the number of its bytes and BUF holding them, so that a command has
them as its input. -/
def Obligations.WrbufGivesInput : Prop :=
  ∀ (s : State) (bs : List Byte), s.params.Valid → s.status.busy = false → s.hostFault = none →
    bs.length ≤ s.params.bufCap → HasInput (deliverAll (wrbuf s.params.base bs) s) bs
end

