-- ==== Sys2Proof/Laws/Memory.lean ====
section
/-! SUPPORT. The laws of the input buffer: read after write, the canonical form, and when its bytes can be read. -/

namespace Sys2Proof.Machine

@[simp] theorem bufRead_nil (k : Nat) : bufRead [] k = none := rfl

/-- A byte reads as the last value written to it, and a write leaves every other byte alone. -/
theorem bufRead_bufWrite (m : List Host.Cell) (k : Nat) (v : Byte) (j : Nat) :
    bufRead (bufWrite m k v) j = if j = k then some v else bufRead m j := by
  induction m with
  | nil => simp only [bufWrite, bufRead, unwrittenByte]; grind
  | cons c m ih =>
    simp only [bufWrite]
    split
    · simp only [bufRead]; grind
    · split
      · simp only [bufRead]; grind
      · simp only [bufRead, ih]; grind

/-- A write of a BUF word sets its four bytes and no other (R53). -/
theorem bufRead_bufWriteWord (m : List Host.Cell) (k : Nat) (v : Word) (j : Nat) :
    bufRead (bufWriteWord m k v) j =
      if j = k then some (lane v 0) else if j = k + 1 then some (lane v 1)
      else if j = k + 2 then some (lane v 2) else if j = k + 3 then some (lane v 3) else bufRead m j := by
  simp only [bufWriteWord, bufRead_bufWrite]
  grind

/-- The canonical form above an index holds above every lower one. -/
theorem bufWfFrom_mono {lo lo' : Nat} (h : lo' ≤ lo) : ∀ m, bufWfFrom lo m = true → bufWfFrom lo' m = true
  | [] => fun _ => rfl
  | c :: m => by
    simp only [bufWfFrom, Bool.and_eq_true, decide_eq_true_eq]
    exact fun ⟨h1, h2⟩ => ⟨by omega, h2⟩

theorem bufWfFrom_bufWrite (m : List Host.Cell) (k : Nat) (v : Byte) :
    ∀ lo, lo ≤ k → bufWfFrom lo m = true → bufWfFrom lo (bufWrite m k v) = true := by
  induction m with
  | nil => intro lo h _; simpa [bufWrite, bufWfFrom] using h
  | cons c m ih =>
    intro lo hlo h
    simp only [bufWfFrom, Bool.and_eq_true, decide_eq_true_eq] at h
    simp only [bufWrite]
    split
    · simp only [bufWfFrom, Bool.and_eq_true, decide_eq_true_eq]
      exact ⟨hlo, by omega, h.2⟩
    · split
      · simp only [bufWfFrom, Bool.and_eq_true, decide_eq_true_eq]
        exact ⟨hlo, by simp_all⟩
      · simp only [bufWfFrom, Bool.and_eq_true, decide_eq_true_eq]
        exact ⟨h.1, ih _ (by omega) h.2⟩

/-- A write keeps the canonical form of BUF. -/
theorem bufWf_bufWrite {m : List Host.Cell} (k : Nat) (v : Byte) (h : bufWf m = true) : bufWf (bufWrite m k v) = true :=
  bufWfFrom_bufWrite m k v 0 (Nat.zero_le k) h

/-- A word write keeps the canonical form of BUF. -/
theorem bufWf_bufWriteWord {m : List Host.Cell} (k : Nat) (v : Word) (h : bufWf m = true) :
    bufWf (bufWriteWord m k v) = true :=
  bufWf_bufWrite _ _ (bufWf_bufWrite _ _ (bufWf_bufWrite _ _ (bufWf_bufWrite _ _ h)))

/-- A write of a byte below a bound keeps every listed index below it. -/
theorem bufBelow_bufWrite {cap : Nat} {m : List Host.Cell} {k : Nat} (v : Byte) (hk : k < cap)
    (h : bufBelow cap m = true) : bufBelow cap (bufWrite m k v) = true := by
  induction m with
  | nil => simpa [bufWrite, bufBelow] using hk
  | cons c m ih =>
    simp only [bufBelow, List.all_cons, Bool.and_eq_true, decide_eq_true_eq] at h ih
    simp only [bufWrite]
    split
    · simpa [bufBelow] using ⟨hk, h.1, by simpa using h.2⟩
    · split
      · simpa [bufBelow] using ⟨hk, by simpa using h.2⟩
      · simp only [bufBelow, List.all_cons, Bool.and_eq_true, decide_eq_true_eq]
        exact ⟨h.1, ih h.2⟩

/-- A word write inside a bound keeps every listed index below it. -/
theorem bufBelow_bufWriteWord {cap : Nat} {m : List Host.Cell} {k : Nat} (v : Word) (hk : k + 3 < cap)
    (h : bufBelow cap m = true) : bufBelow cap (bufWriteWord m k v) = true :=
  bufBelow_bufWrite _ hk (bufBelow_bufWrite _ (by omega) (bufBelow_bufWrite _ (by omega)
    (bufBelow_bufWrite _ (by omega) h)))

/-- The bytes can be read exactly when each of them is written. -/
theorem bufBytesFrom_ok (m : List Host.Cell) (n : Nat) :
    ∀ k bs, bufBytesFrom m k n = .ok bs ↔ bs.length = n ∧ ∀ i, i < n → bufRead m (k + i) = bs[i]? := by
  induction n with
  | zero =>
    intro k bs
    cases bs <;> simp [bufBytesFrom]
  | succ n ih =>
    intro k bs
    simp only [bufBytesFrom]
    cases hb : bufRead m k with
    | none =>
      simp only [reduceCtorEq, false_iff, not_and, not_forall]
      intro hl
      refine ⟨0, by omega, ?_⟩
      rw [Nat.add_zero, hb]
      cases bs <;> simp_all
    | some b =>
      cases hr : bufBytesFrom m (k + 1) n with
      | error j =>
        simp only [reduceCtorEq, false_iff, not_and, not_forall]
        intro hl
        by_contra hall
        push Not at hall
        have h := (ih (k + 1) bs.tail).2 ⟨by simp [hl], fun i hi => by
          have := hall (i + 1) (by omega)
          rw [show k + 1 + i = k + (i + 1) by omega, this]; simp⟩
        rw [hr] at h; cases h
      | ok l =>
        have hl := (ih (k + 1) l).1 hr
        constructor
        · rintro h; cases h
          refine ⟨by simp [hl.1], fun i hi => ?_⟩
          cases i with
          | zero => simpa using hb
          | succ i => have := hl.2 i (by omega); rw [show k + (i + 1) = k + 1 + i by omega, this]; simp
        · rintro ⟨hlen, h⟩
          cases bs with
          | nil => simp at hlen
          | cons c cs =>
            have h0 := h 0 (by omega)
            rw [Nat.add_zero, hb] at h0
            have hcs := (ih (k + 1) cs).2 ⟨by simpa using hlen, fun i hi => by
              have := h (i + 1) (by omega); rw [show k + 1 + i = k + (i + 1) by omega, this]; simp⟩
            rw [hr] at hcs; cases hcs; simp_all

/-- A failed read names the first byte that is not written. -/
theorem bufBytesFrom_error (m : List Host.Cell) (n : Nat) :
    ∀ k j, bufBytesFrom m k n = .error j ↔
      k ≤ j ∧ j < k + n ∧ bufRead m j = none ∧ ∀ i, k ≤ i → i < j → (bufRead m i).isSome := by
  induction n with
  | zero => intro k j; simp [bufBytesFrom]; omega
  | succ n ih =>
    intro k j
    simp only [bufBytesFrom]
    cases hb : bufRead m k with
    | none =>
      simp only [Except.error.injEq]
      constructor
      · rintro rfl; exact ⟨le_rfl, by omega, hb, fun i h1 h2 => by omega⟩
      · rintro ⟨h1, h2, h3, h4⟩
        by_contra hne
        have := h4 k le_rfl (by omega)
        simp [hb] at this
    | some b =>
      have key : bufBytesFrom m (k + 1) n = .error j ↔
          k ≤ j ∧ j < k + (n + 1) ∧ bufRead m j = none ∧ ∀ i, k ≤ i → i < j → (bufRead m i).isSome := by
        rw [ih]
        constructor
        · rintro ⟨h1, h2, h3, h4⟩
          refine ⟨by omega, by omega, h3, fun i hi hj => ?_⟩
          rcases Nat.eq_or_lt_of_le hi with rfl | hlt
          · simp [hb]
          · exact h4 i hlt hj
        · rintro ⟨h1, h2, h3, h4⟩
          have : j ≠ k := by rintro rfl; simp [hb] at h3
          exact ⟨by omega, by omega, h3, fun i hi hj => h4 i (by omega) hj⟩
      rw [← key]
      cases hr : bufBytesFrom m (k + 1) n <;> simp

/-- The buffer is read exactly when each of its bytes is written (R67). -/
theorem bufBytes_ok (m : List Host.Cell) (n : Nat) (bs : List Byte) :
    bufBytes m n = .ok bs ↔ bs.length = n ∧ ∀ i, i < n → bufRead m i = bs[i]? := by
  simpa [bufBytes] using bufBytesFrom_ok m n 0 bs

/-- The buffer cannot be read exactly when one of its bytes is not written; the first is named (R67). -/
theorem bufBytes_error (m : List Host.Cell) (n j : Nat) :
    bufBytes m n = .error j ↔ j < n ∧ bufRead m j = none ∧ ∀ i, i < j → (bufRead m i).isSome := by
  simpa [bufBytes] using bufBytesFrom_error m n 0 j

/-- Buffers that agree below `n` give the same bytes, or the same failure. -/
theorem bufBytesFrom_congr (m m' : List Host.Cell) (n : Nat) :
    ∀ k, (∀ i, k ≤ i → i < k + n → bufRead m i = bufRead m' i) → bufBytesFrom m k n = bufBytesFrom m' k n := by
  induction n with
  | zero => intro k _; rfl
  | succ n ih =>
    intro k h
    simp only [bufBytesFrom, ← h k le_rfl (by omega), ih (k + 1) fun i h1 h2 => h i (by omega) (by omega)]

theorem bufBytes_congr {m m' : List Host.Cell} {n : Nat} (h : ∀ i, i < n → bufRead m i = bufRead m' i) :
    bufBytes m n = bufBytes m' n :=
  bufBytesFrom_congr m m' n 0 fun i _ hi => h i (by omega)

end Sys2Proof.Machine
end

