-- ==== Sys2Proof/Laws/State.lean ====
section
/-! SUPPORT. One lemma per field per update of State, so that no later proof unfolds a record update. -/

namespace Sys2Proof.Machine

/-! ### Acceptance (R40) -/

@[simp] theorem accept_params (v : Word) (s : State) : (accept v s).params = s.params := rfl
@[simp] theorem accept_cmd (v : Word) (s : State) : (accept v s).cmd = v := rfl
@[simp] theorem accept_status (v : Word) (s : State) : (accept v s).status = statusAccepted s.status := rfl
@[simp] theorem accept_poly (v : Word) (s : State) : (accept v s).poly = s.poly := rfl
@[simp] theorem accept_seed (v : Word) (s : State) : (accept v s).seed = s.seed := rfl
@[simp] theorem accept_xorOut (v : Word) (s : State) : (accept v s).xorOut = s.xorOut := rfl
@[simp] theorem accept_target (v : Word) (s : State) : (accept v s).target = s.target := rfl
@[simp] theorem accept_seedStart (v : Word) (s : State) : (accept v s).seedStart = s.seedStart := rfl
@[simp] theorem accept_seedEnd (v : Word) (s : State) : (accept v s).seedEnd = s.seedEnd := rfl
@[simp] theorem accept_xorStart (v : Word) (s : State) : (accept v s).xorStart = s.xorStart := rfl
@[simp] theorem accept_xorEnd (v : Word) (s : State) : (accept v s).xorEnd = s.xorEnd := rfl
@[simp] theorem accept_len (v : Word) (s : State) : (accept v s).len = s.len := rfl
@[simp] theorem accept_crcOut (v : Word) (s : State) : (accept v s).crcOut = s.crcOut := rfl
@[simp] theorem accept_count (v : Word) (s : State) : (accept v s).count = s.count := rfl
@[simp] theorem accept_buf (v : Word) (s : State) : (accept v s).buf = s.buf := rfl
@[simp] theorem accept_res (v : Word) (s : State) : (accept v s).res = s.res := rfl
@[simp] theorem accept_agenda (v : Word) (s : State) : (accept v s).agenda = s.agenda := rfl
@[simp] theorem accept_responses (v : Word) (s : State) : (accept v s).responses = s.responses := rfl
@[simp] theorem accept_hostFault (v : Word) (s : State) : (accept v s).hostFault = s.hostFault := rfl
@[simp] theorem accept_draws (v : Word) (s : State) : (accept v s).draws = s.draws := rfl

/-! ### The busy drop (R57) -/

@[simp] theorem dropWrite_params (s : State) : (dropWrite s).params = s.params := rfl
@[simp] theorem dropWrite_cmd (s : State) : (dropWrite s).cmd = s.cmd := rfl
@[simp] theorem dropWrite_status (s : State) : (dropWrite s).status = statusDropped s.status := rfl
@[simp] theorem dropWrite_poly (s : State) : (dropWrite s).poly = s.poly := rfl
@[simp] theorem dropWrite_seed (s : State) : (dropWrite s).seed = s.seed := rfl
@[simp] theorem dropWrite_xorOut (s : State) : (dropWrite s).xorOut = s.xorOut := rfl
@[simp] theorem dropWrite_target (s : State) : (dropWrite s).target = s.target := rfl
@[simp] theorem dropWrite_seedStart (s : State) : (dropWrite s).seedStart = s.seedStart := rfl
@[simp] theorem dropWrite_seedEnd (s : State) : (dropWrite s).seedEnd = s.seedEnd := rfl
@[simp] theorem dropWrite_xorStart (s : State) : (dropWrite s).xorStart = s.xorStart := rfl
@[simp] theorem dropWrite_xorEnd (s : State) : (dropWrite s).xorEnd = s.xorEnd := rfl
@[simp] theorem dropWrite_len (s : State) : (dropWrite s).len = s.len := rfl
@[simp] theorem dropWrite_crcOut (s : State) : (dropWrite s).crcOut = s.crcOut := rfl
@[simp] theorem dropWrite_count (s : State) : (dropWrite s).count = s.count := rfl
@[simp] theorem dropWrite_buf (s : State) : (dropWrite s).buf = s.buf := rfl
@[simp] theorem dropWrite_res (s : State) : (dropWrite s).res = s.res := rfl
@[simp] theorem dropWrite_agenda (s : State) : (dropWrite s).agenda = s.agenda := rfl
@[simp] theorem dropWrite_responses (s : State) : (dropWrite s).responses = s.responses := rfl
@[simp] theorem dropWrite_hostFault (s : State) : (dropWrite s).hostFault = s.hostFault := rfl
@[simp] theorem dropWrite_draws (s : State) : (dropWrite s).draws = s.draws := rfl

/-! ### Reset of the block (R200) -/

@[simp] theorem resetBlock_params (s : State) : (resetBlock s).params = s.params := rfl
@[simp] theorem resetBlock_cmd (s : State) : (resetBlock s).cmd = 0 := rfl
@[simp] theorem resetBlock_status (s : State) : (resetBlock s).status = Status.reset := rfl
@[simp] theorem resetBlock_poly (s : State) : (resetBlock s).poly = 0 := rfl
@[simp] theorem resetBlock_seed (s : State) : (resetBlock s).seed = 0 := rfl
@[simp] theorem resetBlock_xorOut (s : State) : (resetBlock s).xorOut = 0 := rfl
@[simp] theorem resetBlock_target (s : State) : (resetBlock s).target = 0 := rfl
@[simp] theorem resetBlock_seedStart (s : State) : (resetBlock s).seedStart = 0 := rfl
@[simp] theorem resetBlock_seedEnd (s : State) : (resetBlock s).seedEnd = 0 := rfl
@[simp] theorem resetBlock_xorStart (s : State) : (resetBlock s).xorStart = 0 := rfl
@[simp] theorem resetBlock_xorEnd (s : State) : (resetBlock s).xorEnd = 0 := rfl
@[simp] theorem resetBlock_len (s : State) : (resetBlock s).len = 0 := rfl
@[simp] theorem resetBlock_crcOut (s : State) : (resetBlock s).crcOut = 0 := rfl
@[simp] theorem resetBlock_count (s : State) : (resetBlock s).count = 0 := rfl
@[simp] theorem resetBlock_buf (s : State) : (resetBlock s).buf = [] := rfl
@[simp] theorem resetBlock_res (s : State) : (resetBlock s).res = [] := rfl
@[simp] theorem resetBlock_agenda (s : State) : (resetBlock s).agenda = s.agenda := rfl
@[simp] theorem resetBlock_responses (s : State) : (resetBlock s).responses = s.responses := rfl
@[simp] theorem resetBlock_hostFault (s : State) : (resetBlock s).hostFault = s.hostFault := rfl
@[simp] theorem resetBlock_draws (s : State) : (resetBlock s).draws = s.draws := rfl

/-! ### Completion (R42): what every outcome leaves alone -/

@[simp] theorem complete_params {w : Nat} (o : CmdOutcome w) (s : State) : (complete o s).params = s.params := by cases o <;> rfl
@[simp] theorem complete_cmd {w : Nat} (o : CmdOutcome w) (s : State) : (complete o s).cmd = s.cmd := by cases o <;> rfl
@[simp] theorem complete_poly {w : Nat} (o : CmdOutcome w) (s : State) : (complete o s).poly = s.poly := by cases o <;> rfl
@[simp] theorem complete_seed {w : Nat} (o : CmdOutcome w) (s : State) : (complete o s).seed = s.seed := by cases o <;> rfl
@[simp] theorem complete_xorOut {w : Nat} (o : CmdOutcome w) (s : State) : (complete o s).xorOut = s.xorOut := by cases o <;> rfl
@[simp] theorem complete_target {w : Nat} (o : CmdOutcome w) (s : State) : (complete o s).target = s.target := by cases o <;> rfl
@[simp] theorem complete_seedStart {w : Nat} (o : CmdOutcome w) (s : State) : (complete o s).seedStart = s.seedStart := by cases o <;> rfl
@[simp] theorem complete_seedEnd {w : Nat} (o : CmdOutcome w) (s : State) : (complete o s).seedEnd = s.seedEnd := by cases o <;> rfl
@[simp] theorem complete_xorStart {w : Nat} (o : CmdOutcome w) (s : State) : (complete o s).xorStart = s.xorStart := by cases o <;> rfl
@[simp] theorem complete_xorEnd {w : Nat} (o : CmdOutcome w) (s : State) : (complete o s).xorEnd = s.xorEnd := by cases o <;> rfl
@[simp] theorem complete_len {w : Nat} (o : CmdOutcome w) (s : State) : (complete o s).len = s.len := by cases o <;> rfl
@[simp] theorem complete_buf {w : Nat} (o : CmdOutcome w) (s : State) : (complete o s).buf = s.buf := by cases o <;> rfl
@[simp] theorem complete_agenda {w : Nat} (o : CmdOutcome w) (s : State) : (complete o s).agenda = s.agenda := by cases o <;> rfl
@[simp] theorem complete_responses {w : Nat} (o : CmdOutcome w) (s : State) : (complete o s).responses = s.responses := by cases o <;> rfl
@[simp] theorem complete_hostFault {w : Nat} (o : CmdOutcome w) (s : State) : (complete o s).hostFault = s.hostFault := by cases o <;> rfl
@[simp] theorem complete_draws {w : Nat} (o : CmdOutcome w) (s : State) : (complete o s).draws = s.draws := by cases o <;> rfl

/-! ### Completion (R42): what each outcome writes -/

@[simp] theorem complete_okCrc_crcOut {w : Nat} (v : BitVec w) (s : State) :
    (complete (w := w) (.okCrc v) s).crcOut = v.setWidth 16 := rfl
@[simp] theorem complete_okCrc_count {w : Nat} (v : BitVec w) (s : State) :
    (complete (w := w) (.okCrc v) s).count = 0 := rfl
@[simp] theorem complete_okCrc_res {w : Nat} (v : BitVec w) (s : State) :
    (complete (w := w) (.okCrc v) s).res = [] := rfl
@[simp] theorem complete_okCrc_status {w : Nat} (v : BitVec w) (s : State) :
    (complete (w := w) (.okCrc v) s).status = statusCompleted none s.status := rfl
@[simp] theorem complete_okRecords_crcOut {w : Nat} (l : List (BitVec w × BitVec w)) (s : State) :
    (complete (w := w) (.okRecords l) s).crcOut = s.crcOut := rfl
@[simp] theorem complete_okRecords_count {w : Nat} (l : List (BitVec w × BitVec w)) (s : State) :
    (complete (w := w) (.okRecords l) s).count = BitVec.ofNat 17 l.length := rfl
@[simp] theorem complete_okRecords_res {w : Nat} (l : List (BitVec w × BitVec w)) (s : State) :
    (complete (w := w) (.okRecords l) s).res = l.map record := rfl
@[simp] theorem complete_okRecords_status {w : Nat} (l : List (BitVec w × BitVec w)) (s : State) :
    (complete (w := w) (.okRecords l) s).status = statusCompleted none s.status := rfl
@[simp] theorem complete_err_crcOut {w : Nat} (e : CmdError) (s : State) :
    (complete (w := w) (.err e) s).crcOut = s.crcOut := rfl
@[simp] theorem complete_err_count {w : Nat} (e : CmdError) (s : State) :
    (complete (w := w) (.err e) s).count = 0 := rfl
@[simp] theorem complete_err_res {w : Nat} (e : CmdError) (s : State) :
    (complete (w := w) (.err e) s).res = [] := rfl
@[simp] theorem complete_err_status {w : Nat} (e : CmdError) (s : State) :
    (complete (w := w) (.err e) s).status = statusCompleted (some e) s.status := rfl

/-! ### A response -/

@[simp] theorem respond_params (r : Response) (s : State) : (respond r s).params = s.params := rfl
@[simp] theorem respond_cmd (r : Response) (s : State) : (respond r s).cmd = s.cmd := rfl
@[simp] theorem respond_status (r : Response) (s : State) : (respond r s).status = s.status := rfl
@[simp] theorem respond_poly (r : Response) (s : State) : (respond r s).poly = s.poly := rfl
@[simp] theorem respond_seed (r : Response) (s : State) : (respond r s).seed = s.seed := rfl
@[simp] theorem respond_xorOut (r : Response) (s : State) : (respond r s).xorOut = s.xorOut := rfl
@[simp] theorem respond_target (r : Response) (s : State) : (respond r s).target = s.target := rfl
@[simp] theorem respond_seedStart (r : Response) (s : State) : (respond r s).seedStart = s.seedStart := rfl
@[simp] theorem respond_seedEnd (r : Response) (s : State) : (respond r s).seedEnd = s.seedEnd := rfl
@[simp] theorem respond_xorStart (r : Response) (s : State) : (respond r s).xorStart = s.xorStart := rfl
@[simp] theorem respond_xorEnd (r : Response) (s : State) : (respond r s).xorEnd = s.xorEnd := rfl
@[simp] theorem respond_len (r : Response) (s : State) : (respond r s).len = s.len := rfl
@[simp] theorem respond_crcOut (r : Response) (s : State) : (respond r s).crcOut = s.crcOut := rfl
@[simp] theorem respond_count (r : Response) (s : State) : (respond r s).count = s.count := rfl
@[simp] theorem respond_buf (r : Response) (s : State) : (respond r s).buf = s.buf := rfl
@[simp] theorem respond_res (r : Response) (s : State) : (respond r s).res = s.res := rfl
@[simp] theorem respond_agenda (r : Response) (s : State) : (respond r s).agenda = s.agenda := rfl
@[simp] theorem respond_responses (r : Response) (s : State) : (respond r s).responses = r :: s.responses := rfl
@[simp] theorem respond_hostFault (r : Response) (s : State) : (respond r s).hostFault = s.hostFault := rfl
@[simp] theorem respond_draws (r : Response) (s : State) : (respond r s).draws = s.draws := rfl

/-! ### A bus error (R178) -/

@[simp] theorem busError_params (addr : Nat) (s : State) : (busError addr s).params = s.params := rfl
@[simp] theorem busError_cmd (addr : Nat) (s : State) : (busError addr s).cmd = s.cmd := rfl
@[simp] theorem busError_status (addr : Nat) (s : State) : (busError addr s).status = s.status := rfl
@[simp] theorem busError_poly (addr : Nat) (s : State) : (busError addr s).poly = s.poly := rfl
@[simp] theorem busError_seed (addr : Nat) (s : State) : (busError addr s).seed = s.seed := rfl
@[simp] theorem busError_xorOut (addr : Nat) (s : State) : (busError addr s).xorOut = s.xorOut := rfl
@[simp] theorem busError_target (addr : Nat) (s : State) : (busError addr s).target = s.target := rfl
@[simp] theorem busError_seedStart (addr : Nat) (s : State) : (busError addr s).seedStart = s.seedStart := rfl
@[simp] theorem busError_seedEnd (addr : Nat) (s : State) : (busError addr s).seedEnd = s.seedEnd := rfl
@[simp] theorem busError_xorStart (addr : Nat) (s : State) : (busError addr s).xorStart = s.xorStart := rfl
@[simp] theorem busError_xorEnd (addr : Nat) (s : State) : (busError addr s).xorEnd = s.xorEnd := rfl
@[simp] theorem busError_len (addr : Nat) (s : State) : (busError addr s).len = s.len := rfl
@[simp] theorem busError_crcOut (addr : Nat) (s : State) : (busError addr s).crcOut = s.crcOut := rfl
@[simp] theorem busError_count (addr : Nat) (s : State) : (busError addr s).count = s.count := rfl
@[simp] theorem busError_buf (addr : Nat) (s : State) : (busError addr s).buf = s.buf := rfl
@[simp] theorem busError_res (addr : Nat) (s : State) : (busError addr s).res = s.res := rfl
@[simp] theorem busError_agenda (addr : Nat) (s : State) : (busError addr s).agenda = s.agenda := rfl
@[simp] theorem busError_responses (addr : Nat) (s : State) : (busError addr s).responses = .busError addr :: s.responses := rfl
@[simp] theorem busError_hostFault (addr : Nat) (s : State) : (busError addr s).hostFault = some addr := rfl
@[simp] theorem busError_draws (addr : Nat) (s : State) : (busError addr s).draws = s.draws := rfl

/-! ### A free value taken -/

@[simp] theorem takeDraw_params (s : State) : (takeDraw s).params = s.params := rfl
@[simp] theorem takeDraw_cmd (s : State) : (takeDraw s).cmd = s.cmd := rfl
@[simp] theorem takeDraw_status (s : State) : (takeDraw s).status = s.status := rfl
@[simp] theorem takeDraw_poly (s : State) : (takeDraw s).poly = s.poly := rfl
@[simp] theorem takeDraw_seed (s : State) : (takeDraw s).seed = s.seed := rfl
@[simp] theorem takeDraw_xorOut (s : State) : (takeDraw s).xorOut = s.xorOut := rfl
@[simp] theorem takeDraw_target (s : State) : (takeDraw s).target = s.target := rfl
@[simp] theorem takeDraw_seedStart (s : State) : (takeDraw s).seedStart = s.seedStart := rfl
@[simp] theorem takeDraw_seedEnd (s : State) : (takeDraw s).seedEnd = s.seedEnd := rfl
@[simp] theorem takeDraw_xorStart (s : State) : (takeDraw s).xorStart = s.xorStart := rfl
@[simp] theorem takeDraw_xorEnd (s : State) : (takeDraw s).xorEnd = s.xorEnd := rfl
@[simp] theorem takeDraw_len (s : State) : (takeDraw s).len = s.len := rfl
@[simp] theorem takeDraw_crcOut (s : State) : (takeDraw s).crcOut = s.crcOut := rfl
@[simp] theorem takeDraw_count (s : State) : (takeDraw s).count = s.count := rfl
@[simp] theorem takeDraw_buf (s : State) : (takeDraw s).buf = s.buf := rfl
@[simp] theorem takeDraw_res (s : State) : (takeDraw s).res = s.res := rfl
@[simp] theorem takeDraw_agenda (s : State) : (takeDraw s).agenda = s.agenda := rfl
@[simp] theorem takeDraw_responses (s : State) : (takeDraw s).responses = s.responses := rfl
@[simp] theorem takeDraw_hostFault (s : State) : (takeDraw s).hostFault = s.hostFault := rfl
@[simp] theorem takeDraw_draws (s : State) : (takeDraw s).draws = s.draws + 1 := rfl

/-! ### A read answered with a free value -/

@[simp] theorem readDraw_params (s : State) : (readDraw s).params = s.params := rfl
@[simp] theorem readDraw_cmd (s : State) : (readDraw s).cmd = s.cmd := rfl
@[simp] theorem readDraw_status (s : State) : (readDraw s).status = s.status := rfl
@[simp] theorem readDraw_poly (s : State) : (readDraw s).poly = s.poly := rfl
@[simp] theorem readDraw_seed (s : State) : (readDraw s).seed = s.seed := rfl
@[simp] theorem readDraw_xorOut (s : State) : (readDraw s).xorOut = s.xorOut := rfl
@[simp] theorem readDraw_target (s : State) : (readDraw s).target = s.target := rfl
@[simp] theorem readDraw_seedStart (s : State) : (readDraw s).seedStart = s.seedStart := rfl
@[simp] theorem readDraw_seedEnd (s : State) : (readDraw s).seedEnd = s.seedEnd := rfl
@[simp] theorem readDraw_xorStart (s : State) : (readDraw s).xorStart = s.xorStart := rfl
@[simp] theorem readDraw_xorEnd (s : State) : (readDraw s).xorEnd = s.xorEnd := rfl
@[simp] theorem readDraw_len (s : State) : (readDraw s).len = s.len := rfl
@[simp] theorem readDraw_crcOut (s : State) : (readDraw s).crcOut = s.crcOut := rfl
@[simp] theorem readDraw_count (s : State) : (readDraw s).count = s.count := rfl
@[simp] theorem readDraw_buf (s : State) : (readDraw s).buf = s.buf := rfl
@[simp] theorem readDraw_res (s : State) : (readDraw s).res = s.res := rfl
@[simp] theorem readDraw_agenda (s : State) : (readDraw s).agenda = s.agenda := rfl
@[simp] theorem readDraw_responses (s : State) : (readDraw s).responses = .value (Config.draw s.draws) :: s.responses := rfl
@[simp] theorem readDraw_hostFault (s : State) : (readDraw s).hostFault = s.hostFault := rfl
@[simp] theorem readDraw_draws (s : State) : (readDraw s).draws = s.draws + 1 := rfl

/-! ### The host's agenda replaced -/

@[simp] theorem setAgenda_params (l : List Turn) (s : State) : (setAgenda l s).params = s.params := rfl
@[simp] theorem setAgenda_cmd (l : List Turn) (s : State) : (setAgenda l s).cmd = s.cmd := rfl
@[simp] theorem setAgenda_status (l : List Turn) (s : State) : (setAgenda l s).status = s.status := rfl
@[simp] theorem setAgenda_poly (l : List Turn) (s : State) : (setAgenda l s).poly = s.poly := rfl
@[simp] theorem setAgenda_seed (l : List Turn) (s : State) : (setAgenda l s).seed = s.seed := rfl
@[simp] theorem setAgenda_xorOut (l : List Turn) (s : State) : (setAgenda l s).xorOut = s.xorOut := rfl
@[simp] theorem setAgenda_target (l : List Turn) (s : State) : (setAgenda l s).target = s.target := rfl
@[simp] theorem setAgenda_seedStart (l : List Turn) (s : State) : (setAgenda l s).seedStart = s.seedStart := rfl
@[simp] theorem setAgenda_seedEnd (l : List Turn) (s : State) : (setAgenda l s).seedEnd = s.seedEnd := rfl
@[simp] theorem setAgenda_xorStart (l : List Turn) (s : State) : (setAgenda l s).xorStart = s.xorStart := rfl
@[simp] theorem setAgenda_xorEnd (l : List Turn) (s : State) : (setAgenda l s).xorEnd = s.xorEnd := rfl
@[simp] theorem setAgenda_len (l : List Turn) (s : State) : (setAgenda l s).len = s.len := rfl
@[simp] theorem setAgenda_crcOut (l : List Turn) (s : State) : (setAgenda l s).crcOut = s.crcOut := rfl
@[simp] theorem setAgenda_count (l : List Turn) (s : State) : (setAgenda l s).count = s.count := rfl
@[simp] theorem setAgenda_buf (l : List Turn) (s : State) : (setAgenda l s).buf = s.buf := rfl
@[simp] theorem setAgenda_res (l : List Turn) (s : State) : (setAgenda l s).res = s.res := rfl
@[simp] theorem setAgenda_agenda (l : List Turn) (s : State) : (setAgenda l s).agenda = l := rfl
@[simp] theorem setAgenda_responses (l : List Turn) (s : State) : (setAgenda l s).responses = s.responses := rfl
@[simp] theorem setAgenda_hostFault (l : List Turn) (s : State) : (setAgenda l s).hostFault = s.hostFault := rfl
@[simp] theorem setAgenda_draws (l : List Turn) (s : State) : (setAgenda l s).draws = s.draws := rfl

/-! ### A command word placed -/

@[simp] theorem placeCommand_params (c : Word) (s : State) : (placeCommand c s).params = s.params := rfl
@[simp] theorem placeCommand_cmd (c : Word) (s : State) : (placeCommand c s).cmd = c := rfl
@[simp] theorem placeCommand_status (c : Word) (s : State) : (placeCommand c s).status = statusAccepted s.status := rfl
@[simp] theorem placeCommand_poly (c : Word) (s : State) : (placeCommand c s).poly = s.poly := rfl
@[simp] theorem placeCommand_seed (c : Word) (s : State) : (placeCommand c s).seed = s.seed := rfl
@[simp] theorem placeCommand_xorOut (c : Word) (s : State) : (placeCommand c s).xorOut = s.xorOut := rfl
@[simp] theorem placeCommand_target (c : Word) (s : State) : (placeCommand c s).target = s.target := rfl
@[simp] theorem placeCommand_seedStart (c : Word) (s : State) : (placeCommand c s).seedStart = s.seedStart := rfl
@[simp] theorem placeCommand_seedEnd (c : Word) (s : State) : (placeCommand c s).seedEnd = s.seedEnd := rfl
@[simp] theorem placeCommand_xorStart (c : Word) (s : State) : (placeCommand c s).xorStart = s.xorStart := rfl
@[simp] theorem placeCommand_xorEnd (c : Word) (s : State) : (placeCommand c s).xorEnd = s.xorEnd := rfl
@[simp] theorem placeCommand_len (c : Word) (s : State) : (placeCommand c s).len = s.len := rfl
@[simp] theorem placeCommand_crcOut (c : Word) (s : State) : (placeCommand c s).crcOut = s.crcOut := rfl
@[simp] theorem placeCommand_count (c : Word) (s : State) : (placeCommand c s).count = s.count := rfl
@[simp] theorem placeCommand_buf (c : Word) (s : State) : (placeCommand c s).buf = s.buf := rfl
@[simp] theorem placeCommand_res (c : Word) (s : State) : (placeCommand c s).res = s.res := rfl
@[simp] theorem placeCommand_agenda (c : Word) (s : State) : (placeCommand c s).agenda = yieldTurn s.agenda := rfl
@[simp] theorem placeCommand_responses (c : Word) (s : State) : (placeCommand c s).responses = s.responses := rfl
@[simp] theorem placeCommand_hostFault (c : Word) (s : State) : (placeCommand c s).hostFault = s.hostFault := rfl
@[simp] theorem placeCommand_draws (c : Word) (s : State) : (placeCommand c s).draws = s.draws := rfl

/-! ### STATUS (R23, R40, R42, R57) -/

@[simp] theorem statusAccepted_busy (st : Status) : (statusAccepted st).busy = true := rfl
@[simp] theorem statusAccepted_done (st : Status) : (statusAccepted st).done = false := rfl
@[simp] theorem statusAccepted_werr (st : Status) : (statusAccepted st).werr = st.werr := rfl
@[simp] theorem statusAccepted_err (st : Status) : (statusAccepted st).err = none := rfl
@[simp] theorem statusCompleted_busy (e : Option CmdError) (st : Status) : (statusCompleted e st).busy = false := rfl
@[simp] theorem statusCompleted_done (e : Option CmdError) (st : Status) : (statusCompleted e st).done = true := rfl
@[simp] theorem statusCompleted_werr (e : Option CmdError) (st : Status) : (statusCompleted e st).werr = st.werr := rfl
@[simp] theorem statusCompleted_err (e : Option CmdError) (st : Status) : (statusCompleted e st).err = e := rfl
@[simp] theorem statusDropped_busy (st : Status) : (statusDropped st).busy = st.busy := rfl
@[simp] theorem statusDropped_done (st : Status) : (statusDropped st).done = st.done := rfl
@[simp] theorem statusDropped_werr (st : Status) : (statusDropped st).werr = true := rfl
@[simp] theorem statusDropped_err (st : Status) : (statusDropped st).err = st.err := rfl
@[simp] theorem statusWritten_busy (v : Word) (st : Status) : (statusWritten v st).busy = st.busy := by
  unfold statusWritten; split <;> rfl
@[simp] theorem statusWritten_done (v : Word) (st : Status) : (statusWritten v st).done = st.done := by
  unfold statusWritten; split <;> rfl
@[simp] theorem statusWritten_err (v : Word) (st : Status) : (statusWritten v st).err = st.err := by
  unfold statusWritten; split <;> rfl
@[simp] theorem statusWritten_werr (v : Word) (st : Status) :
    (statusWritten v st).werr = (st.werr && !v.getLsbD 2) := by
  unfold statusWritten; split <;> simp_all

/-! ### A register write: what no register's write changes (R29, R30) -/

@[simp] theorem writeReg_params (r : RegName) (v : Word) (s : State) : (writeReg r v s).params = s.params := by
  cases r <;> rfl
@[simp] theorem writeReg_crcOut (r : RegName) (v : Word) (s : State) : (writeReg r v s).crcOut = s.crcOut := by
  cases r <;> rfl
@[simp] theorem writeReg_count (r : RegName) (v : Word) (s : State) : (writeReg r v s).count = s.count := by
  cases r <;> rfl
@[simp] theorem writeReg_buf (r : RegName) (v : Word) (s : State) : (writeReg r v s).buf = s.buf := by
  cases r <;> rfl
@[simp] theorem writeReg_res (r : RegName) (v : Word) (s : State) : (writeReg r v s).res = s.res := by
  cases r <;> rfl
@[simp] theorem writeReg_agenda (r : RegName) (v : Word) (s : State) : (writeReg r v s).agenda = s.agenda := by
  cases r <;> rfl
@[simp] theorem writeReg_responses (r : RegName) (v : Word) (s : State) : (writeReg r v s).responses = s.responses := by
  cases r <;> rfl
@[simp] theorem writeReg_hostFault (r : RegName) (v : Word) (s : State) : (writeReg r v s).hostFault = s.hostFault := by
  cases r <;> rfl
@[simp] theorem writeReg_draws (r : RegName) (v : Word) (s : State) : (writeReg r v s).draws = s.draws := by
  cases r <;> rfl

end Sys2Proof.Machine
end

