-- ==== Sys2Proof/Laws/Ops.lean ====
section
/-! SUPPORT. What the shared command operations can do: validation (R172), completion (R42) and the record limit (R176), each
said once; and what any command can do. -/

namespace Sys2Proof.Machine

/-- Every way the validation of R172 can end. -/
theorem runCommand_cases {w : Nat} (s : State) (e : Option CmdError) (body : List Byte → CmdOutcome w) :
    (s.params.bufCap < opLen s ∧ runCommand s e body = .next (complete (w := w) (.err .bufferLength) s)) ∨
    (opLen s ≤ s.params.bufCap ∧ ∃ e', e = some e' ∧ runCommand s e body = .next (complete (w := w) (.err e') s)) ∨
    (opLen s ≤ s.params.bufCap ∧ e = none ∧ ∃ k, bufBytes s.buf (opLen s) = .error k ∧
      runCommand s e body = .fault (.unwrittenInput k)) ∨
    (opLen s ≤ s.params.bufCap ∧ e = none ∧ ∃ buf, bufBytes s.buf (opLen s) = .ok buf ∧
      runCommand s e body = .next (complete (body buf) s)) := by
  unfold runCommand
  by_cases h : s.params.bufCap < opLen s
  · exact .inl ⟨h, if_pos h⟩
  · rw [if_neg h]
    have h' : opLen s ≤ s.params.bufCap := by omega
    cases e with
    | some e => exact .inr (.inl ⟨h', e, rfl, rfl⟩)
    | none =>
      cases hb : bufBytes s.buf (opLen s) with
      | error k => exact .inr (.inr (.inl ⟨h', rfl, k, rfl, rfl⟩))
      | ok buf => exact .inr (.inr (.inr ⟨h', rfl, buf, rfl, rfl⟩))

/-- A command whose LEN is above BUF_CAP ends there (R174). -/
theorem runCommand_length {w : Nat} {s : State} (h : s.params.bufCap < opLen s) (e : Option CmdError)
    (body : List Byte → CmdOutcome w) :
    runCommand s e body = .next (complete (w := w) (.err .bufferLength) s) :=
  if_pos h

/-- A command whose range check fails ends there (R175). -/
theorem runCommand_range {w : Nat} {s : State} (h : opLen s ≤ s.params.bufCap) (e : CmdError)
    (body : List Byte → CmdOutcome w) :
    runCommand s (some e) body = .next (complete (w := w) (.err e) s) := by
  simp [runCommand, Nat.not_lt.2 h]

/-- A command whose checks pass and whose buffer is written completes with its own outcome (R172). -/
theorem runCommand_ok {w : Nat} {s : State} {buf : List Byte} (h : HasInput s buf) (body : List Byte → CmdOutcome w) :
    runCommand s none body = .next (complete (body buf) s) := by
  simp [runCommand, Nat.not_lt.2 h.1, h.2]

/-- A command whose checks pass and whose buffer is not written whole faults (R67). -/
theorem runCommand_fault {w : Nat} {s : State} {k : Nat} (h : opLen s ≤ s.params.bufCap)
    (hk : bufBytes s.buf (opLen s) = .error k) (body : List Byte → CmdOutcome w) :
    runCommand s none body = .fault (.unwrittenInput k) := by
  simp [runCommand, Nat.not_lt.2 h, hk]

theorem complete_okCrc {w : Nat} (v : BitVec w) (s : State) :
    complete (.okCrc v) s = afterCrc (v.setWidth 16) s := rfl

theorem complete_okRecords {w : Nat} (l : List (BitVec w × BitVec w)) (s : State) :
    complete (.okRecords l) s = afterRecords (l.map record) s := by
  simp [complete, afterRecords, succeeded, statusCompleted]

theorem complete_err {w : Nat} (e : CmdError) (s : State) :
    complete (w := w) (.err e) s = afterError e s := rfl

/-- The record limit passes a list that fits and turns a longer one into RESOURCE_EXHAUSTED (R176). -/
theorem limitRecords_cases {w : Nat} (cap : Nat) (l : List (BitVec w × BitVec w)) :
    (l.length ≤ cap ∧ limitRecords cap l = .okRecords l) ∨
      (cap < l.length ∧ limitRecords cap l = .err .resourceExhausted) := by
  unfold limitRecords
  by_cases h : cap < l.length
  · exact .inr ⟨h, if_pos h⟩
  · exact .inl ⟨by omega, if_neg h⟩

/-- What an outcome that a command can have looks like: no error but those a computation can raise, and no more records
than fit. -/
theorem limitWalk_cases {w : Nat} (cap : Nat) (l : Option (List (BitVec w × BitVec w))) :
    (∃ l', l = some l' ∧ l'.length ≤ cap ∧ limitWalk cap l = .okRecords l') ∨
      limitWalk cap l = .err .resourceExhausted := by
  cases l with
  | none => exact .inr rfl
  | some l =>
    rcases limitRecords_cases cap l with h | h
    · exact .inl ⟨l, rfl, h⟩
    · exact .inr h.2

/-- The output XOR range check raises INVALID_RANGE exactly on an inverted range (R175). -/
theorem xorRangeError_cases (w : Nat) (s : State) :
    (XorRangeValid w s ∧ xorRangeError w s = none) ∨ (¬ XorRangeValid w s ∧ xorRangeError w s = some .invalidRange) := by
  unfold xorRangeError XorRangeValid
  by_cases h : opXorEnd w s < opXorStart w s
  · exact .inr ⟨BitVec.not_le.2 h, if_pos h⟩
  · exact .inl ⟨BitVec.not_lt.1 h, if_neg h⟩

/-- The range checks of SEARCH raise INVALID_RANGE exactly when one of the two ranges is inverted (R175). -/
theorem searchRangeError_cases (w : Nat) (s : State) :
    (SearchRangesValid w s ∧ searchRangeError w s = none) ∨
      (¬ SearchRangesValid w s ∧ searchRangeError w s = some .invalidRange) := by
  unfold searchRangeError SearchRangesValid
  by_cases h : opSeedEnd w s < opSeedStart w s
  · exact .inr ⟨fun h' => BitVec.not_le.2 h h'.1, if_pos h⟩
  · rw [if_neg h]
    rcases xorRangeError_cases w s with h' | h'
    · exact .inl ⟨⟨BitVec.not_lt.1 h, h'.1⟩, h'.2⟩
    · exact .inr ⟨fun h'' => h'.1 h''.2, h'.2⟩

/-- What a computed outcome can be, for a command of the forward engine and for one that gives records. -/
inductive Computed (i : Instr) (s : State) : State → Prop where
  /-- A CRC command's value (R111, R112). -/
  | crcValue {w : Nat} (v : BitVec w) : IsCrc i → w ≤ commandWidth i → Computed i s (complete (.okCrc v) s)
  /-- Records that fit RESULT_CAP (R124, R148, R150). -/
  | records {w : Nat} (l : List (BitVec w × BitVec w)) : ¬ IsCrc i → l.length ≤ s.params.resultCap →
      Computed i s (complete (.okRecords l) s)
  /-- RESOURCE_EXHAUSTED (R176). -/
  | exhausted : ¬ IsCrc i → Computed i s (complete (w := 8) (.err .resourceExhausted) s)

/-- How the engine step of a command can end (R172). -/
inductive Ending (i : Instr) (s : State) : Host.Outcome State Fault Refusal → Prop where
  /-- BUFFER_LENGTH (R174). -/
  | length : s.params.bufCap < opLen s → Ending i s (.next (afterError .bufferLength s))
  /-- INVALID_RANGE (R175). -/
  | range : opLen s ≤ s.params.bufCap → ¬ RangesValid i s → Ending i s (.next (afterError .invalidRange s))
  /-- The fault on the first unwritten byte (R67). -/
  | unwritten (k : Nat) : opLen s ≤ s.params.bufCap → RangesValid i s → bufBytes s.buf (opLen s) = .error k →
      Ending i s (.fault (.unwrittenInput k))
  /-- What the command computed from the buffer. -/
  | computed (buf : List Byte) (t : State) : RangesValid i s → HasInput s buf → Computed i s t → Ending i s (.next t)

/-- A command without a range check ends as R172 says. -/
theorem runCommand_none_ends {w : Nat} {i : Instr} {s : State} (body : List Byte → CmdOutcome w) (hr : RangesValid i s)
    (hc : ∀ buf, HasInput s buf → Computed i s (complete (body buf) s)) : Ending i s (runCommand s none body) := by
  rcases runCommand_cases s none body with h | ⟨_, _, h, _⟩ | ⟨h1, _, k, h2, h3⟩ | ⟨h1, _, buf, h2, h3⟩
  · rw [h.2]; exact .length h.1
  · cases h
  · rw [h3]; exact .unwritten k h1 hr h2
  · rw [h3]; exact .computed buf _ hr ⟨h1, h2⟩ (hc buf ⟨h1, h2⟩)

/-- A command with a range check ends as R172 says. -/
theorem runCommand_range_ends {w : Nat} {i : Instr} {s : State} {e : Option CmdError} (body : List Byte → CmdOutcome w)
    (hr : (RangesValid i s ∧ e = none) ∨ (¬ RangesValid i s ∧ e = some .invalidRange))
    (hc : ∀ buf, HasInput s buf → Computed i s (complete (body buf) s)) : Ending i s (runCommand s e body) := by
  rcases hr with ⟨hr, rfl⟩ | ⟨hr, rfl⟩
  · exact runCommand_none_ends body hr hc
  · by_cases h : s.params.bufCap < opLen s
    · rw [runCommand_length h]; exact .length h
    · rw [runCommand_range (Nat.not_lt.1 h)]; exact .range (Nat.not_lt.1 h) hr

/-- A record list under the limit is something a command computes (R176). -/
theorem computed_limitRecords {w : Nat} {i : Instr} {s : State} (l : List (BitVec w × BitVec w)) (hi : ¬ IsCrc i) :
    Computed i s (complete (limitRecords s.params.resultCap l) s) := by
  rcases limitRecords_cases s.params.resultCap l with ⟨h1, h2⟩ | ⟨_, h2⟩ <;> rw [h2]
  · exact .records l hi h1
  · exact .exhausted hi

/-- A walk under the limit is something a command computes (R176). -/
theorem computed_limitWalk {w : Nat} {i : Instr} {s : State} (l : Option (List (BitVec w × BitVec w))) (hi : ¬ IsCrc i) :
    Computed i s (complete (limitWalk s.params.resultCap l) s) := by
  rcases limitWalk_cases s.params.resultCap l with ⟨l', _, h1, h2⟩ | h2 <;> rw [h2]
  · exact .records l' hi h1
  · exact .exhausted hi

/-- Everything a command can do (R172): it ends with BUFFER_LENGTH, ends with INVALID_RANGE, faults on the first unwritten byte
of its buffer, or completes with what it computed from the buffer. -/
theorem exec_ends (i : Instr) (s : State) : Ending i s (exec i s) := by
  cases i with
  | crc8 ref rb rf => exact runCommand_none_ends _ trivial fun buf _ => .crcValue _ trivial le_rfl
  | crc16 ref rb rf => exact runCommand_none_ends _ trivial fun buf _ => .crcValue _ trivial le_rfl
  | search8 ref => exact runCommand_range_ends _ (searchRangeError_cases 8 s) fun buf _ => computed_limitRecords _ id
  | search16 ref => exact runCommand_range_ends _ (searchRangeError_cases 16 s) fun buf _ => computed_limitRecords _ id
  | invert8 => exact runCommand_none_ends _ trivial fun buf _ => computed_limitWalk _ id
  | invert16 => exact runCommand_none_ends _ trivial fun buf _ => computed_limitWalk _ id
  | invrange8 => exact runCommand_range_ends _ (xorRangeError_cases 8 s) fun buf _ => computed_limitWalk _ id
  | invrange16 => exact runCommand_range_ends _ (xorRangeError_cases 16 s) fun buf _ => computed_limitWalk _ id

/-- A command that answers a next state completes: by an outcome of R42 applied to its start state. -/
theorem exec_next_completes {i : Instr} {s t : State} (h : exec i s = .next t) :
    ∃ (w : Nat) (o : CmdOutcome w), t = complete o s ∧ (¬ IsCrc i → ∀ v, o ≠ .okCrc v) ∧
      (∀ l, o = .okRecords l → l.length ≤ s.params.resultCap) := by
  have he := exec_ends i s
  rw [h] at he
  cases he with
  | length _ => exact ⟨8, .err .bufferLength, rfl, fun _ v => nofun, fun l => nofun⟩
  | range _ _ => exact ⟨8, .err .invalidRange, rfl, fun _ v => nofun, fun l => nofun⟩
  | computed buf _ _ _ hc =>
    cases hc with
    | crcValue v hi _ => exact ⟨_, .okCrc v, rfl, fun hn => absurd hi hn, fun l => nofun⟩
    | records l _ hl => exact ⟨_, .okRecords l, rfl, fun _ v => nofun, fun l' h' => by cases h'; exact hl⟩
    | exhausted _ => exact ⟨8, .err .resourceExhausted, rfl, fun _ v => nofun, fun l => nofun⟩

end Sys2Proof.Machine
end

