-- ==== Sys2Proof/Laws/Bus.lean ====
section
/-! SUPPORT. What a host access can do: the address map (R50), reads, writes, and the host agent's moves, each said once. -/

namespace Sys2Proof.Machine

theorem regAt_regOffset (r : RegName) : regAt (regOffset r) = some r := by
  cases r <;> rfl

theorem regOffset_lt (r : RegName) : regOffset r < 0x34 := by
  cases r <;> decide

theorem regOffset_aligned (r : RegName) : regOffset r % 4 = 0 := by
  cases r <;> rfl

/-- Away from the thirteen offsets there is no register (R21). -/
theorem regAt_other {off : Nat} (h : off % 4 ≠ 0 ∨ 0x34 ≤ off) : regAt off = none := by
  unfold regAt
  repeat rw [if_neg (by omega)]

/-- The aligned offsets below 0x34 are the registers' (R21). -/
theorem exists_regOffset {off : Nat} (h : off < 0x34) (h4 : off % 4 = 0) : ∃ r, off = regOffset r := by
  have : off = 0x00 ∨ off = 0x04 ∨ off = 0x08 ∨ off = 0x0C ∨ off = 0x10 ∨ off = 0x14 ∨ off = 0x18 ∨ off = 0x1C ∨
      off = 0x20 ∨ off = 0x24 ∨ off = 0x28 ∨ off = 0x2C ∨ off = 0x30 := by omega
  rcases this with h | h | h | h | h | h | h | h | h | h | h | h | h
  exacts [⟨.cmd, h⟩, ⟨.status, h⟩, ⟨.poly, h⟩, ⟨.seed, h⟩, ⟨.xorOut, h⟩, ⟨.target, h⟩, ⟨.seedStart, h⟩, ⟨.seedEnd, h⟩,
    ⟨.xorStart, h⟩, ⟨.xorEnd, h⟩, ⟨.len, h⟩, ⟨.crcOut, h⟩, ⟨.count, h⟩]

/-- A register is only at its own offset (R21). -/
theorem regAt_eq_some {off : Nat} {r : RegName} (h : regAt off = some r) : off = regOffset r := by
  by_cases ho : off < 0x34 ∧ off % 4 = 0
  · obtain ⟨r', rfl⟩ := exists_regOffset ho.1 ho.2
    rw [regAt_regOffset] at h
    cases h
    rfl
  · rw [regAt_other (by omega)] at h
    cases h

/-- No register is at or beyond offset 0x34 (R21). -/
theorem regAt_eq_none {off : Nat} (h : 0x34 ≤ off) : regAt off = none :=
  regAt_other (.inr h)

/-- Every aligned offset below 0x34 is a register's (R21). -/
theorem regAt_isSome {off : Nat} (h : off < 0x34) (h4 : off % 4 = 0) : ∃ r, regAt off = some r := by
  obtain ⟨r, rfl⟩ := exists_regOffset h h4
  exact ⟨r, regAt_regOffset r⟩

/-- Below the BUF window the address map is the registers' (R50). -/
theorem targetAt_low (p : Params) {off : Nat} (h : off < 0x10000) : targetAt p off = (regAt off).map .reg := by
  rw [targetAt, if_neg (by simp only [bufWindow]; omega), if_neg (by simp only [resWindow]; omega)]
  cases regAt off <;> rfl

/-- The BUF window (R50, R53). -/
theorem targetAt_buf (p : Params) {off : Nat} (h1 : 0x10000 ≤ off) (h2 : off < 0x10000 + p.bufCap) :
    targetAt p off = some (.buf (off - 0x10000)) :=
  if_pos ⟨h1, h2⟩

/-- The RES window (R50, R55). -/
theorem targetAt_res (p : Params) {off : Nat} (h0 : 0x10000 + p.bufCap ≤ off) (h1 : 0x40000 ≤ off)
    (h2 : off < 0x40000 + 4 * p.resultCap) : targetAt p off = some (.res ((off - 0x40000) / 4)) := by
  rw [targetAt, if_neg (by simp only [bufWindow]; omega), if_pos ⟨h1, h2⟩]
  rfl

/-- The reserved offsets (R50, R52). -/
theorem targetAt_reserved (p : Params) {off : Nat} (h0 : 0x34 ≤ off)
    (h1 : ¬ (0x10000 ≤ off ∧ off < 0x10000 + p.bufCap)) (h2 : ¬ (0x40000 ≤ off ∧ off < 0x40000 + 4 * p.resultCap)) :
    targetAt p off = none := by
  rw [targetAt, if_neg (by simpa only [bufWindow] using h1), if_neg (by simpa only [resWindow] using h2), regAt_eq_none h0]

/-- An aligned 32-bit access reaches what the address map says (R51). -/
theorem busTarget_w32 (p : Params) {off : Nat} (h : off % 4 = 0) : busTarget p .w32 off = targetAt p off :=
  if_pos ⟨rfl, h⟩

/-- Any other access is a bus error (R51). -/
theorem busTarget_bad (p : Params) {width : AccessWidth} {off : Nat} (h : width ≠ .w32 ∨ off % 4 ≠ 0) :
    busTarget p width off = none :=
  if_neg fun h' => h.elim (fun h => h h'.1) fun h => h h'.2

/-- Where the registers are reached (R50). -/
theorem busTarget_reg (p : Params) (r : RegName) : busTarget p .w32 (regOffset r) = some (.reg r) := by
  have := regOffset_lt r
  rw [busTarget_w32 p (regOffset_aligned r), targetAt_low p (by omega), regAt_regOffset]
  rfl

/-- Where the BUF words are reached (R53). -/
theorem busTarget_buf (p : Params) {k : Nat} (hk : 4 * k < p.bufCap) :
    busTarget p .w32 (0x10000 + 4 * k) = some (.buf (4 * k)) := by
  rw [busTarget_w32 p (by omega), targetAt_buf p (by omega) (by omega), Nat.add_sub_cancel_left]

/-- Where the RES slots are reached (R55). -/
theorem busTarget_res {p : Params} (hp : p.bufCap ≤ 65536) {i : Nat} (hi : i < p.resultCap) :
    busTarget p .w32 (0x40000 + 4 * i) = some (.res i) := by
  rw [busTarget_w32 p (by omega), targetAt_res p (by omega) (by omega) (by omega), show (0x40000 + 4 * i - 0x40000) / 4 = i by omega]

/-- Whatever an access reaches, it reaches it there and nowhere else (R50, R51). -/
theorem busTarget_cases {p : Params} {width : AccessWidth} {off : Nat} {t : Target} (h : busTarget p width off = some t) :
    width = .w32 ∧
      ((∃ r, t = .reg r ∧ off = regOffset r) ∨
        (∃ k, t = .buf (4 * k) ∧ off = 0x10000 + 4 * k ∧ 4 * k < p.bufCap) ∨
        (∃ i, t = .res i ∧ off = 0x40000 + 4 * i ∧ i < p.resultCap)) := by
  by_cases h1 : width = .w32 ∧ off % 4 = 0
  · obtain ⟨rfl, h4⟩ := h1
    rw [busTarget_w32 p h4] at h
    refine ⟨rfl, ?_⟩
    by_cases h2 : 0x10000 ≤ off ∧ off < 0x10000 + p.bufCap
    · rw [targetAt_buf p h2.1 h2.2] at h
      cases h
      exact .inr (.inl ⟨(off - 0x10000) / 4, by rw [show 4 * ((off - 0x10000) / 4) = off - 0x10000 by omega], by omega,
        by omega⟩)
    · by_cases h3 : 0x40000 ≤ off ∧ off < 0x40000 + 4 * p.resultCap
      · rw [targetAt_res p (by omega) h3.1 h3.2] at h
        cases h
        exact .inr (.inr ⟨_, rfl, by omega, by omega⟩)
      · by_cases h5 : 0x34 ≤ off
        · rw [targetAt_reserved p h5 h2 h3] at h
          cases h
        · obtain ⟨r, hr⟩ := regAt_isSome (Nat.not_le.1 h5) h4
          rw [targetAt_low p (by omega), hr] at h
          cases h
          exact .inl ⟨r, rfl, regAt_eq_some hr⟩
  · rw [busTarget_bad p (by by_cases hw : width = .w32 <;> simp_all)] at h
    cases h

theorem inBlock_iff (p : Params) (addr : Nat) : inBlock p addr = true ↔ p.base ≤ addr ∧ addr ≤ p.base + 0xFFFFF := by
  simp [inBlock]

theorem SameBlock.refl (s : State) : SameBlock s s :=
  ⟨⟨rfl, rfl, rfl, rfl, rfl, rfl, rfl, rfl, rfl, rfl, rfl, rfl⟩, rfl, rfl, rfl, rfl⟩

theorem sameBlock_respond (r : Response) (s : State) : SameBlock s (respond r s) :=
  ⟨⟨rfl, rfl, rfl, rfl, rfl, rfl, rfl, rfl, rfl, rfl, rfl, rfl⟩, rfl, rfl, rfl, rfl⟩

theorem sameBlock_readDraw (s : State) : SameBlock s (readDraw s) :=
  ⟨⟨rfl, rfl, rfl, rfl, rfl, rfl, rfl, rfl, rfl, rfl, rfl, rfl⟩, rfl, rfl, rfl, rfl⟩

/-- Everything a read that is no bus error can do: answer one value, with or without taking a free one (R58, R60). -/
theorem readTarget_cases (t : Target) (s : State) :
    (∃ v, readTarget t s = respond (.value v) s) ∨ (∃ v, readTarget t s = respond (.value v) (takeDraw s)) := by
  cases t with
  | reg r =>
    simp only [readTarget, readRegister]
    split
    · exact .inr ⟨_, rfl⟩
    · exact .inl ⟨_, rfl⟩
  | buf k =>
    simp only [readTarget, readBuf]
    split
    · exact .inl ⟨_, rfl⟩
    · exact .inr ⟨_, rfl⟩
  | res i =>
    simp only [readTarget, readRes]
    split
    · cases s.res[i]? with
      | none => exact .inr ⟨_, rfl⟩
      | some v => exact .inl ⟨v, rfl⟩
    · exact .inr ⟨_, rfl⟩

/-- Everything a host read can do: no response, a bus error, or one value (R50 to R58, R178). -/
theorem hostRead_cases (width : AccessWidth) (addr : Nat) (s : State) :
    hostRead width addr s = respond (.noResponse addr) s ∨ hostRead width addr s = busError addr s ∨
      (∃ v, hostRead width addr s = respond (.value v) s) ∨
      (∃ v, hostRead width addr s = respond (.value v) (takeDraw s)) := by
  unfold hostRead
  split
  · split
    · exact .inr (.inr (readTarget_cases _ s))
    · exact .inr (.inl rfl)
  · exact .inl rfl

/-- Everything a host write can do: no response, a bus error, the busy drop of a write to a register other than STATUS or to
BUF, or the write itself, each where R50 to R57 say. -/
theorem hostWrite_cases (width : AccessWidth) (addr : Nat) (v : Word) (s : State) :
    hostWrite width addr v s = respond (.noResponse addr) s ∨
    hostWrite width addr v s = busError addr s ∨
    (s.status.busy = true ∧ width = .w32 ∧
      ((∃ r, r ≠ .status ∧ addr = s.params.base + regOffset r) ∨
        (∃ k, addr = s.params.base + 0x10000 + 4 * k ∧ 4 * k < s.params.bufCap)) ∧
      hostWrite width addr v s = respond .written (dropWrite s)) ∨
    (∃ r, (s.status.busy = false ∨ r = .status) ∧ width = .w32 ∧ addr = s.params.base + regOffset r ∧
      hostWrite width addr v s = respond .written (writeReg r v s)) ∨
    (∃ k, s.status.busy = false ∧ width = .w32 ∧ addr = s.params.base + 0x10000 + 4 * k ∧ 4 * k < s.params.bufCap ∧
      hostWrite width addr v s = respond .written { s with buf := bufWriteWord s.buf (4 * k) v }) := by
  by_cases hb : inBlock s.params addr = true
  · have hle := ((inBlock_iff _ _).1 hb).1
    cases ht : busTarget s.params width (addr - s.params.base) with
    | none => exact .inr (.inl (by simp [hostWrite, hb, ht]))
    | some t =>
      obtain ⟨hw, ⟨r, rfl, ho⟩ | ⟨k, rfl, ho, hk⟩ | ⟨i, rfl, _, _⟩⟩ := busTarget_cases ht
      · by_cases hd : s.status.busy = true ∧ r ≠ .status
        · exact .inr (.inr (.inl ⟨hd.1, hw, .inl ⟨r, hd.2, by omega⟩, by simp [hostWrite, hb, ht, writeRegister, hd]⟩))
        · have hd' : s.status.busy = false ∨ r = .status := by
            cases hbz : s.status.busy <;> simp_all
          refine .inr (.inr (.inr (.inl ⟨r, hd', hw, by omega, ?_⟩)))
          rcases hd' with h | h <;> simp [hostWrite, hb, ht, writeRegister, h]
      · cases hbz : s.status.busy with
        | true => exact .inr (.inr (.inl ⟨rfl, hw, .inr ⟨k, by omega, hk⟩, by simp [hostWrite, hb, ht, writeBuf, hbz]⟩))
        | false =>
          exact .inr (.inr (.inr (.inr ⟨k, rfl, hw, by omega, hk, by simp [hostWrite, hb, ht, writeBuf, hbz]⟩)))
      · exact .inr (.inl (by simp [hostWrite, hb, ht]))
  · exact .inl (by simp [hostWrite, hb])

/-- A write of a register is the register write under the busy rule. -/
theorem hostWrite_reg (s : State) (r : RegName) (v : Word) :
    hostWrite .w32 (s.params.base + regOffset r) v s = respond .written (writeRegister r v s) := by
  have hin : inBlock s.params (s.params.base + regOffset r) = true := by
    have := regOffset_lt r
    rw [inBlock_iff]; omega
  rw [hostWrite, if_pos hin, Nat.add_sub_cancel_left, busTarget_reg]

/-- A read of a register is the register read. -/
theorem hostRead_reg (s : State) (r : RegName) :
    hostRead .w32 (s.params.base + regOffset r) s = readRegister r s := by
  have hin : inBlock s.params (s.params.base + regOffset r) = true := by
    have := regOffset_lt r
    rw [inBlock_iff]; omega
  rw [hostRead, if_pos hin, Nat.add_sub_cancel_left, busTarget_reg]
  rfl

/-- A write of a BUF word is the word write under the busy rule. -/
theorem hostWrite_buf {s : State} (hp : s.params.bufCap ≤ 65536) {k : Nat} (hk : 4 * k < s.params.bufCap) (v : Word) :
    hostWrite .w32 (s.params.base + 0x10000 + 4 * k) v s = respond .written (writeBuf (4 * k) v s) := by
  have hin : inBlock s.params (s.params.base + 0x10000 + 4 * k) = true := by
    rw [inBlock_iff]; omega
  rw [hostWrite, if_pos hin, Nat.add_assoc, Nat.add_sub_cancel_left, busTarget_buf s.params hk]

/-- A read of a BUF word is the word read. -/
theorem hostRead_buf {s : State} (hp : s.params.bufCap ≤ 65536) {k : Nat} (hk : 4 * k < s.params.bufCap) :
    hostRead .w32 (s.params.base + 0x10000 + 4 * k) s = readBuf (4 * k) s := by
  have hin : inBlock s.params (s.params.base + 0x10000 + 4 * k) = true := by
    rw [inBlock_iff]; omega
  rw [hostRead, if_pos hin, Nat.add_assoc, Nat.add_sub_cancel_left, busTarget_buf s.params hk]
  rfl

/-- A read of a RES slot is the slot read. -/
theorem hostRead_res {s : State} (hp : s.params.bufCap ≤ 65536) (hr : s.params.resultCap ≤ 65536) {i : Nat}
    (hi : i < s.params.resultCap) :
    hostRead .w32 (s.params.base + 0x40000 + 4 * i) s = readRes i s := by
  have hin : inBlock s.params (s.params.base + 0x40000 + 4 * i) = true := by
    rw [inBlock_iff]; omega
  rw [hostRead, if_pos hin, Nat.add_assoc, Nat.add_sub_cancel_left, busTarget_res hp hi]
  rfl

/-- Everything a poll can do: answer STATUS, and come back while BUSY is 1 (R84). -/
theorem hostPoll_eq (lead : Nat) (s : State) :
    hostPoll lead s =
      if s.status.busy then
        setAgenda (⟨.poll, lead - 1⟩ :: s.agenda) (respond (.value (statusWord s.status)) s)
      else respond (.value (statusWord s.status)) s := by
  have hin : inBlock s.params (s.params.base + regOffset .status) = true := by
    rw [inBlock_iff]; simp only [regOffset]; omega
  have : hostRead .w32 (s.params.base + regOffset .status) s = respond (.value (statusWord s.status)) s := by
    simp [hostRead, hin, busTarget_reg, readTarget, readRegister, readReg]
  simp only [hostPoll, this, respond_agenda]

/-- Everything the delivery of an event can do. -/
theorem deliver_cases (u : Turn) (s : State) :
    (s.hostFault ≠ none ∧ deliver u s = s) ∨ (u.event = .reset ∧ deliver u s = resetBlock s) ∨
    (s.hostFault = none ∧ ∃ width addr, u.event = .read width addr ∧ deliver u s = hostRead width addr s) ∨
    (s.hostFault = none ∧ ∃ width addr v, u.event = .write width addr v ∧ deliver u s = hostWrite width addr v s) ∨
    (s.hostFault = none ∧ u.event = .poll ∧ deliver u s = hostPoll u.lead s) := by
  unfold deliver
  cases hu : u.event with
  | reset => exact .inr (.inl ⟨rfl, rfl⟩)
  | read width addr =>
    cases hf : s.hostFault with
    | none => exact .inr (.inr (.inl ⟨rfl, width, addr, rfl, by simp⟩))
    | some a => exact .inl ⟨by simp, by simp⟩
  | write width addr v =>
    cases hf : s.hostFault with
    | none => exact .inr (.inr (.inr (.inl ⟨rfl, width, addr, v, rfl, by simp⟩)))
    | some a => exact .inl ⟨by simp, by simp⟩
  | poll =>
    cases hf : s.hostFault with
    | none => exact .inr (.inr (.inr (.inr ⟨rfl, rfl, by simp⟩)))
    | some a => exact .inl ⟨by simp, by simp⟩

/-- A stopped host performs no access (R178); reset still arrives (R200). -/
theorem deliver_stopped {s : State} (h : s.hostFault ≠ none) (t : Turn) :
    deliver t s = if t.event = .reset then resetBlock s else s := by
  have h' : s.hostFault.isSome = true := by cases hf : s.hostFault <;> simp_all
  unfold deliver
  cases t.event <;> simp [h']

end Sys2Proof.Machine
end

