-- ==== Sys2Proof/Laws/PerInstr.lean ====
section
/-! SUPPORT. Statements about every command as syntax, one lemma per constructor. -/

/-- A command's word has its row's value under its row's mask, and its reserved bits are 0 (R75, R78). -/
def Sys2Proof.Laws.OpcodeRow.Statement (i : Sys2Proof.Instr) : Prop :=
  Sys2Proof.encode i &&& i.mask = i.pattern ∧ (Sys2Proof.encode i).extractLsb' 8 24 = 0#24

namespace Sys2Proof.Laws.OpcodeRow

theorem crc8 (ref rb rf : Bool) : Statement (.crc8 ref rb rf) := by
  cases ref <;> cases rb <;> cases rf <;> exact ⟨by decide, by decide⟩

theorem crc16 (ref rb rf : Bool) : Statement (.crc16 ref rb rf) := by
  cases ref <;> cases rb <;> cases rf <;> exact ⟨by decide, by decide⟩

theorem search8 (ref : Bool) : Statement (.search8 ref) := by
  cases ref <;> exact ⟨by decide, by decide⟩

theorem search16 (ref : Bool) : Statement (.search16 ref) := by
  cases ref <;> exact ⟨by decide, by decide⟩

theorem invert8 : Statement .invert8 := ⟨by decide, by decide⟩

theorem invert16 : Statement .invert16 := ⟨by decide, by decide⟩

theorem invrange8 : Statement .invrange8 := ⟨by decide, by decide⟩

theorem invrange16 : Statement .invrange16 := ⟨by decide, by decide⟩

end Sys2Proof.Laws.OpcodeRow
end

