-- ==== Sys2Proof/Laws/Step.lean ====
section
/-! SUPPORT. What one step can do, said once: an engine step (R41), an idle step (R189), or one host event (R61). -/

namespace Sys2Proof.Machine

theorem engineTurn_busy {s : State} (h : engineTurn s = true) : s.status.busy = true := by
  simp only [engineTurn, Bool.and_eq_true] at h
  exact h.1

theorem step_engine {s : State} (h : engineTurn s = true) : step s = engineStep s := by
  simp [step, h]

theorem step_host {s : State} (h : engineTurn s = false) : step s = .next (hostStep s) := by
  simp [step, h]

/-- A legal word's engine step is the meaning of its command; an illegal one's completes with ILLEGAL_COMMAND (R172). -/
theorem engineStep_cases (s : State) :
    (∃ i, decode s.cmd = .ok i ∧ engineStep s = exec i s) ∨
      (∃ e, decode s.cmd = .error e ∧ engineStep s = .next (afterError .illegalCommand s)) := by
  cases h : decode s.cmd with
  | ok i => exact .inl ⟨i, rfl, by simp [engineStep, h]⟩
  | error e => exact .inr ⟨e, rfl, by simp [engineStep, h, illegalCommand, complete_err]⟩

/-- An engine step that answers a next state completes the command (R42). -/
theorem engineStep_completes {s t : State} (h : engineStep s = .next t) :
    ∃ (w : Nat) (o : CmdOutcome w), t = complete o s ∧
      ((∃ v, o = .okCrc v) → ∃ i, decode s.cmd = .ok i ∧ IsCrc i) ∧
      (∀ l, o = .okRecords l → l.length ≤ s.params.resultCap) := by
  rcases engineStep_cases s with ⟨i, hi, he⟩ | ⟨e, _, he⟩ <;> rw [he] at h
  · obtain ⟨w, o, h1, h2, h3⟩ := exec_next_completes h
    exact ⟨w, o, h1, fun ⟨v, hv⟩ => ⟨i, hi, Classical.byContradiction fun hn => h2 hn v hv⟩, h3⟩
  · cases h
    exact ⟨8, .err .illegalCommand, rfl, fun ⟨v, hv⟩ => (nomatch hv), fun l => nofun⟩

/-- Everything a step that answers a next state can do. -/
theorem step_next_cases {s t : State} (h : step s = .next t) :
    (engineTurn s = true ∧ engineStep s = .next t) ∨
    (engineTurn s = false ∧ s.agenda = [] ∧ t = s) ∨
    (engineTurn s = false ∧ ∃ u rest, s.agenda = u :: rest ∧ t = deliver u (setAgenda rest s)) := by
  cases he : engineTurn s with
  | true => exact .inl ⟨rfl, by rwa [step_engine he] at h⟩
  | false =>
    rw [step_host he] at h
    cases h
    unfold hostStep
    cases ha : s.agenda with
    | nil => exact .inr (.inl ⟨rfl, rfl, rfl⟩)
    | cons u rest => exact .inr (.inr ⟨rfl, u, rest, rfl, rfl⟩)

/-- A step faults only where the engine's does (R67). -/
theorem step_fault {s : State} {f : Fault} (h : step s = .fault f) : engineTurn s = true ∧ engineStep s = .fault f := by
  cases he : engineTurn s with
  | true => exact ⟨rfl, by rwa [step_engine he] at h⟩
  | false => rw [step_host he] at h; cases h

/-- No command is refused: every row of the table has its meaning. -/
theorem exec_not_refused (i : Instr) (s : State) (r : Refusal) : exec i s ≠ .refused r := by
  intro h
  have he := exec_ends i s
  rw [h] at he
  cases he

end Sys2Proof.Machine
end

