-- ==== Sys2Proof/Tests/Slice0.lean ====
section
/-! SUPPORT. The model's own tests: the option check, command words written out from R70, one step of each command and some
host accesses against the vectors of spec/95_test_vectors.md, and a witness for the hypotheses of each statement. -/

namespace Sys2Proof.Tests

open Sys2Proof Sys2Proof.Machine

/-! ### The option check (R76) refuses each option on an operation that does not take it -/

theorem test_wf_refuses_ref_on_invert : Fields.wf ⟨.invert, false, true, false, false⟩ = false := by decide
theorem test_wf_refuses_ref_on_invrange : Fields.wf ⟨.invrange, true, true, false, false⟩ = false := by decide
theorem test_wf_refuses_rb_on_search : Fields.wf ⟨.search, false, false, true, false⟩ = false := by decide
theorem test_wf_refuses_rb_on_invert : Fields.wf ⟨.invert, true, false, true, false⟩ = false := by decide
theorem test_wf_refuses_rb_on_invrange : Fields.wf ⟨.invrange, false, false, true, false⟩ = false := by decide
theorem test_wf_refuses_rf_on_search : Fields.wf ⟨.search, true, false, false, true⟩ = false := by decide
theorem test_wf_refuses_rf_on_invert : Fields.wf ⟨.invert, false, false, false, true⟩ = false := by decide
theorem test_wf_refuses_rf_on_invrange : Fields.wf ⟨.invrange, true, false, false, true⟩ = false := by decide
theorem test_wf_takes_all_on_crc : Fields.wf ⟨.crc, true, true, true, true⟩ = true := by decide
theorem test_wf_takes_ref_on_search : Fields.wf ⟨.search, false, true, false, false⟩ = true := by decide

/-! ### Command words, bit 31 first: 24 zeros, RF, RB, REF, W16, OP (R70; 95_test_vectors.md section 2.7) -/

theorem test_decode_crc8 : decode 0b00000000000000000000000000000001#32 = .ok (.crc8 false false false) := by decide
theorem test_decode_crc8_rb_rf : decode 0b00000000000000000000000011000001#32 = .ok (.crc8 false true true) := by decide
theorem test_decode_crc16_ref : decode 0b00000000000000000000000000110001#32 = .ok (.crc16 true false false) := by decide
theorem test_decode_crc16_all : decode 0b00000000000000000000000011110001#32 = .ok (.crc16 true true true) := by decide
theorem test_decode_search8 : decode 0b00000000000000000000000000000010#32 = .ok (.search8 false) := by decide
theorem test_decode_search16_ref : decode 0b00000000000000000000000000110010#32 = .ok (.search16 true) := by decide
theorem test_decode_invert8 : decode 0b00000000000000000000000000000011#32 = .ok .invert8 := by decide
theorem test_decode_invert16 : decode 0b00000000000000000000000000010011#32 = .ok .invert16 := by decide
theorem test_decode_invrange8 : decode 0b00000000000000000000000000000100#32 = .ok .invrange8 := by decide
theorem test_decode_invrange16 : decode 0b00000000000000000000000000010100#32 = .ok .invrange16 := by decide
theorem test_decode_rb_on_search : decode 0x00000042#32 = .error .optionNotTaken := by decide
theorem test_decode_ref_on_invert : decode 0x00000023#32 = .error .optionNotTaken := by decide
theorem test_decode_rf_on_invrange : decode 0x00000084#32 = .error .optionNotTaken := by decide
theorem test_decode_op15 : decode 0x0000001F#32 = .error .reservedOp := by decide
theorem test_decode_op0 : decode 0x00000000#32 = .error .reservedOp := by decide
theorem test_decode_bit8 : decode 0x00000100#32 = .error .reservedBits := by decide
theorem test_decode_bit31 : decode 0x80000011#32 = .error .reservedBits := by decide

theorem test_encode_crc16_ref_rf : encode (.crc16 true false true) = 0x000000B1#32 := by decide
theorem test_encode_search16_ref : encode (.search16 true) = 0x00000032#32 := by decide
theorem test_table_word : decodeTableWord 32 0x91 = some (.crc16 false false true) := by decide
theorem test_mnemonic : (Instr.crc16 true false true).fields.mnemonic = "crc.16.ref.rf" := by decide

/-! ### Small states -/

/-- The parameters of the programs of 95_test_vectors.md, at some base. -/
def params : Params :=
  { base := 0x300000, addrW := 32, bufCap := 256, resultCap := 65536 }

/-- An idle block with this input buffer, LEN its number of bytes. -/
def withBuf (bs : List Byte) : State :=
  { State.reset with
    params := params
    buf := bs.zipIdx.map fun p => (p.2, p.1)
    len := BitVec.ofNat 17 bs.length }

/-- The nine bytes of "123456789". -/
def nine : List Byte := [0x31, 0x32, 0x33, 0x34, 0x35, 0x36, 0x37, 0x38, 0x39]

/-- The buffer [0x12, 0x34] of the source's scenario 1, POLY 0x07. -/
def two : State := { withBuf [0x12, 0x34] with poly := 0x07 }

/-- `two` with a command pending. -/
def pending (c : Word) : State := accept c two

/-- ERR's code, CRC_OUT, COUNT and RES after a next state. -/
def result (o : Host.Outcome State Fault Refusal) : Option (BitVec 3 × BitVec 16 × BitVec 17 × List Word) :=
  match o with
  | .next t => some (errCode t.status.err, t.crcOut, t.count, t.res)
  | .fault _ => none
  | .refused _ => none

/-- The outcome is a next state. -/
def isNext (o : Host.Outcome State Fault Refusal) : Bool :=
  match o with
  | .next _ => true
  | .fault _ => false
  | .refused _ => false

/-- The state after a step that has one. -/
def nextOr (s : State) (o : Host.Outcome State Fault Refusal) : State :=
  match o with
  | .next t => t
  | .fault _ => s
  | .refused _ => s

/-! ### One step of each command (95_test_vectors.md sections 2.1 to 2.5) -/

/-- Section 2.1, "123456789" at POLY 0x9B, SEED 0xFF. -/
theorem test_crc8 :
    result (exec (.crc8 false false false) { withBuf nine with poly := 0x9B, seed := 0xFF }) = some (0, 0xDA, 0, []) := by
  decide +kernel

/-- Section 2.1, the transforms: RB and RF on [0x12, 0x34]. -/
theorem test_crc8_transformed : result (exec (.crc8 true true true) two) = some (0, 0xAD, 0, []) := by
  decide +kernel

/-- Section 2.1, "123456789" at POLY 0x1021, SEED and XOROUT 0xFFFF. -/
theorem test_crc16 :
    result (exec (.crc16 false false false) { withBuf nine with poly := 0x1021, seed := 0xFFFF, xorOut := 0xFFFF }) =
      some (0, 0xD64E, 0, []) := by
  decide +kernel

/-- Section 2.1, word 0x91: RF alone. -/
theorem test_crc16_reflected :
    result (exec (.crc16 true false true) { withBuf nine with poly := 0x8005 }) = some (0, 0xBCDD, 0, []) := by
  decide +kernel

/-- Q2: seed-major order, the maximum seed visited. -/
theorem test_search8 :
    result (exec (.search8 true)
      { two with target := 0x26, seedStart := 0xFE, seedEnd := 0xFF, xorStart := 0, xorEnd := 0xFF }) =
      some (0, 0, 2, [0x001500FE, 0x000000FF]) := by
  decide +kernel

/-- E9: an inverted output XOR range, the seed range valid. -/
theorem test_search8_inverted :
    result (exec (.search8 false) { two with seedStart := 2, seedEnd := 3, xorStart := 9, xorEnd := 8 }) =
      some (2, 0, 0, []) := by
  decide +kernel

/-- Q6: the square ending at the maximum. -/
theorem test_search16 :
    result (exec (.search16 false)
      { withBuf nine with poly := 0x1021, target := 0xD64E, seedStart := 0xFFFE, seedEnd := 0xFFFF, xorStart := 0xFFFE, xorEnd := 0xFFFF }) =
      some (0, 0, 1, [0xFFFFFFFF]) := by
  decide +kernel

/-- Q5. -/
theorem test_search16_low :
    result (exec (.search16 true)
      { withBuf nine with poly := 0x1021, target := 0x31C3, seedEnd := 1, xorEnd := 1 }) = some (0, 0, 1, [0]) := by
  decide +kernel

/-- V8: an even polynomial, two candidates in the order of R142. -/
theorem test_invert8 : result (exec .invert8 { two with poly := 0x06 }) = some (0, 0, 2, [0x65, 0xE6]) := by
  decide +kernel

/-- V9: an even polynomial and an odd target, no candidate. -/
theorem test_invert8_none : result (exec .invert8 { two with poly := 0x06, target := 1 }) = some (0, 0, 0, []) := by
  decide +kernel

/-- V14 (scenario 2). -/
theorem test_invert16 :
    result (exec .invert16 { withBuf [0xFF] with poly := 0x8005 }) = some (0, 0, 1, [0x0000FF00]) := by
  decide +kernel

/-- V16. -/
theorem test_invert16_nine :
    result (exec .invert16 { withBuf nine with poly := 0x1021, target := 0x29B1 }) = some (0, 0, 1, [0x0000FFFF]) := by
  decide +kernel

/-- X1. -/
theorem test_invrange8 :
    result (exec .invrange8 { two with target := 0x5A, xorEnd := 3 }) =
      some (0, 0, 4, [0x0000001C, 0x000100ED, 0x000200F9, 0x00030008]) := by
  decide +kernel

/-- E10: four records and two slots. -/
theorem test_invrange8_exhausted :
    result (exec .invrange8 { two with params := { params with resultCap := 2 }, target := 0x5A, xorEnd := 3 }) =
      some (4, 0, 0, []) := by
  decide +kernel

/-- X5. -/
theorem test_invrange16 :
    result (exec .invrange16
      { withBuf nine with poly := 0x1021, target := 0xD64E, xorStart := 0xFFFF, xorEnd := 0xFFFF }) =
      some (0, 0, 1, [0xFFFFFFFF]) := by
  decide +kernel

/-- E7: BUFFER_LENGTH before the inverted range. -/
theorem test_invrange16_length :
    result (exec .invrange16
      { two with params := { params with bufCap := 8 }, len := 9, xorStart := 2, xorEnd := 1 }) =
      some (3, 0, 0, []) := by
  decide +kernel

/-! ### Reset, and the word placed for the next step -/

theorem test_reset_runs_crc8 : result (step (State.reset.withFetchWord 32 0x01)) = some (0, 0, 0, []) := by decide
theorem test_reset_runs_search16 : result (step (State.reset.withFetchWord 32 0x12)) = some (0, 0, 1, [0]) := by decide
theorem test_reset_runs_illegal : result (step (State.reset.withFetchWord 32 0x42)) = some (1, 0, 0, []) := by decide

/-! ### Host accesses (95_test_vectors.md section 2.6), each one event delivered -/

/-- H1 and H3: a reserved offset and a misaligned one are bus errors. -/
theorem test_host_bus_errors :
    (hostRead .w32 0x300034 two).hostFault = some 0x300034 ∧ (hostRead .w32 0x30000A two).hostFault = some 0x30000A := by
  decide

/-- H2: an 8-bit write to BUF is a bus error and leaves it. -/
theorem test_host_byte_write :
    (hostWrite .w8 0x310000 0xFF two).hostFault = some 0x310000 ∧ (hostWrite .w8 0x310000 0xFF two).buf = two.buf := by
  decide

/-- H4: beyond BUF_CAP. -/
theorem test_host_beyond_buf : (hostWrite .w32 0x310100 0 two).hostFault = some 0x310100 := by decide

/-- H5: a write to RES is a bus error, not WERR, even while BUSY. -/
theorem test_host_write_res :
    (hostWrite .w32 0x340000 0 (pending 1)).hostFault = some 0x340000 ∧
      (hostWrite .w32 0x340000 0 (pending 1)).status.werr = false := by
  decide

/-- H6 to H8: a read-only register ignores a write; reserved bits are not stored. -/
theorem test_host_register_writes :
    (hostWrite .w32 0x30002C 0xFFFFFFFF two).crcOut = 0 ∧
      readReg .poly (hostWrite .w32 0x300008 0xFFFFFFFF two) = 0x0000FFFF#32 ∧
      readReg .len (hostWrite .w32 0x300028 0xFFFFFFFF two) = 0x0001FFFF#32 := by
  decide

/-- H10 to H12: while BUSY, writes are dropped with WERR, and STATUS bit 2 clears it. -/
theorem test_host_busy_writes :
    (hostWrite .w32 0x300008 0x31 (pending 1)).poly = 7 ∧
      readReg .status (hostWrite .w32 0x300000 2 (pending 1)) = 0x00000005#32 ∧
      (hostWrite .w32 0x300000 2 (pending 1)).cmd = 1 ∧
      readReg .status (hostWrite .w32 0x300004 4 (hostWrite .w32 0x300000 2 (pending 1))) = 0x00000001#32 := by
  decide

/-- H13 and H14: a busy read of COUNT takes a free value, one of POLY does not. -/
theorem test_host_busy_reads :
    (hostRead .w32 0x300030 (pending 1)).draws = 1 ∧
      (hostRead .w32 0x300008 (pending 1)).responses = [.value 0x00000007#32] ∧
      (hostRead .w32 0x300008 (pending 1)).draws = 0 := by
  decide

/-- H16: little-endian bytes, and the word back. -/
theorem test_host_buf_word :
    (hostWrite .w32 0x310000 0x00003412 (withBuf [])).buf = [(0, 0x12), (1, 0x34), (2, 0), (3, 0)] ∧
      (hostRead .w32 0x310000 (hostWrite .w32 0x310000 0x00003412 (withBuf []))).responses =
        [.value 0x00003412#32, .written] := by
  decide

/-- H17: a word never written takes a free value. -/
theorem test_host_unwritten_word : (hostRead .w32 0x310000 (withBuf [])).draws = 1 := by decide

/-- E13: a command over bytes never written faults, naming the first. -/
theorem test_unwritten_input :
    exec (.crc8 false false false) { withBuf [0x12] with len := 4 } = .fault (.unwrittenInput 1) := by
  rfl

/-! ### Witnesses: states and operands that meet the hypotheses of each statement -/

theorem params_valid : params.Valid where
  baseAligned := by decide
  addrWMin := by decide
  baseInside := by decide
  bufCapAligned := by decide
  bufCapMin := by decide
  bufCapMax := by decide
  resultCapMin := by decide
  resultCapMax := by decide

theorem two_input : HasInput two [0x12, 0x34] := ⟨by decide, rfl⟩

theorem two_inv : Inv two where
  params := params_valid
  bufCanonical := by decide
  bufInside := by decide
  resCount := rfl
  countInside := by decide
  busyFlags := nofun
  errFlags := fun h => absurd rfl h
  fresh := fun _ _ => ⟨rfl, rfl, rfl⟩

/-- `two` after X1's command: four records. -/
def recorded : State :=
  { two with status := { Status.reset with done := true }, cmd := 4, count := 4, res := [0x0000001C, 0x000100ED, 0x000200F9, 0x00030008] }

theorem recorded_inv : Inv recorded where
  params := params_valid
  bufCanonical := by decide
  bufInside := by decide
  resCount := rfl
  countInside := by decide
  busyFlags := nofun
  errFlags := fun h => absurd rfl h
  fresh := nofun

/-- `two` with this agenda. -/
def facing (l : List Turn) (s : State) : State := setAgenda l s

theorem witness_illegal_word :
    engineTurn (pending 0x42) = true ∧ decode (pending 0x42).cmd = .error .optionNotTaken ∧ two.status.busy = false := by
  decide

theorem witness_step_runs_decoded :
    engineTurn (pending 0x91) = true ∧ decode (pending 0x91).cmd = .ok (.crc16 false false true) := by decide

theorem witness_step_delivers :
    engineTurn two = false ∧ two.hostFault = none ∧ two.agenda = [] ∧
      engineTurn (facing [⟨.read .w32 0x300004, 1⟩] (pending 1)) = false ∧
      engineTurn (facing [⟨.write .w32 0x300008 9, 1⟩] (pending 1)) = false ∧
      engineTurn (facing [⟨.poll, 2⟩] (pending 1)) = false ∧
      engineTurn (facing [⟨.reset, 1⟩] (pending 1)) = false ∧
      engineTurn (facing [⟨.read .w32 0x300004, 0⟩] (busError 0x300034 two)) = false ∧
      (busError 0x300034 two).hostFault ≠ none := by
  decide

theorem witness_idle :
    two.status.busy = false ∧ two.agenda = [] ∧
      step (facing [⟨.write .w32 0x300000 1, 0⟩] two) = .next (respond .written (pending 1)) ∧
      (respond .written (pending 1)).status.busy = true :=
  ⟨rfl, rfl, rfl, rfl⟩

theorem witness_busy : (facing [⟨.poll, 2⟩, ⟨.read .w32 0x300008, 1⟩] (pending 1)).status.busy = true := rfl

theorem witness_step_keeps_invariant :
    (∃ s, Inv s ∧ isNext (step s) = true) ∧ WholeWords (withBuf [1, 2, 3, 4]).buf ∧ params.Valid := by
  refine ⟨⟨two, two_inv, rfl⟩, fun k => ?_, params_valid⟩
  cases k with
  | zero => exact ⟨rfl, rfl, rfl⟩
  | succ k =>
    have h : ∀ j, 4 ≤ j → bufRead (withBuf [1, 2, 3, 4]).buf j = none := fun j hj => by
      simp only [withBuf, List.zipIdx, List.map, bufRead, unwrittenByte]
      rw [if_neg (by omega), if_neg (by omega), if_neg (by omega), if_neg (by omega)]
    rw [h _ (by omega), h _ (by omega), h _ (by omega), h _ (by omega)]
    exact ⟨rfl, rfl, rfl⟩

theorem witness_crc8 : HasInput two [0x12, 0x34] := two_input

theorem witness_crc16 : HasInput { withBuf nine with poly := 0x1021 } nine := ⟨by decide, rfl⟩

/-- Both branches of SEARCH8: one record and room for it; two records and one slot. -/
theorem witness_search8 :
    HasInput two [0x12, 0x34] ∧ SearchRangesValid 8 two ∧
      (searchPairs [0x12, 0x34] 0x07#8 0xF1#8 0 0 0 0).length ≤ 65536 ∧
      1 < (searchPairs [0x12, 0x34] 0x07#8 0x26#8 0xFE 0xFF 0 0xFF).length := by
  refine ⟨two_input, by decide, ?_⟩
  decide +kernel

/-- Both branches of SEARCH16: Q6, and two seeds that match with one slot. -/
theorem witness_search16 :
    HasInput (withBuf nine) nine ∧ SearchRangesValid 16 (withBuf nine) ∧
      (searchPairs nine 0x1021#16 0xD64E#16 0xFFFE 0xFFFF 0xFFFE 0xFFFF).length ≤ 65536 ∧
      1 < (searchPairs [] 0x1021#16 0#16 0 1 0 1).length := by
  refine ⟨⟨by decide, rfl⟩, by decide, ?_⟩
  decide +kernel

/-- Both branches of INVERT8: V8 with room, and with one slot. -/
theorem witness_invert8 :
    HasInput { two with poly := 0x06 } [0x12, 0x34] ∧
      result (exec .invert8 { two with poly := 0x06, params := { params with resultCap := 1 } }) = some (4, 0, 0, []) := by
  refine ⟨⟨by decide, rfl⟩, ?_⟩
  decide +kernel

/-- Both branches of INVERT16: V14 with room; and two candidates with one slot. -/
theorem witness_invert16 :
    HasInput { withBuf [0xFF] with poly := 0x8005 } [0xFF] ∧
      result (exec .invert16 { withBuf [0x00] with poly := 0x0002, params := { params with resultCap := 1 } }) =
        some (4, 0, 0, []) := by
  refine ⟨⟨by decide, rfl⟩, ?_⟩
  decide +kernel

theorem witness_invrange8 : HasInput two [0x12, 0x34] ∧ XorRangeValid 8 { two with xorEnd := 3 } :=
  ⟨two_input, by decide⟩

theorem witness_invrange16 :
    HasInput { withBuf nine with xorStart := 0xFFFF, xorEnd := 0xFFFF } nine ∧
      XorRangeValid 16 { withBuf nine with xorStart := 0xFFFF, xorEnd := 0xFFFF } ∧
      result (exec .invrange16 { withBuf [0x00] with poly := 1, xorEnd := 1, params := { params with resultCap := 1 } }) =
        some (4, 0, 0, []) := by
  refine ⟨⟨by decide, rfl⟩, by decide, ?_⟩
  decide +kernel

theorem witness_every_command :
    HasInput two [0x12, 0x34] ∧ RangesValid (.search16 true) two ∧ RangesValid .invrange8 two ∧
      2 ^ (commandWidth .invrange16) ≤ two.params.resultCap :=
  ⟨two_input, ⟨by decide, by decide⟩, show XorRangeValid 8 two by decide, by decide⟩

theorem witness_command_frame :
    [Instr.crc8 false true false, .crc16 true false true, .search8 false, .search16 true, .invert8, .invert16, .invrange8,
      .invrange16].all (fun i => isNext (exec i two)) = true := by
  decide +kernel

/-- Two states that differ in CRC_OUT with a CRC that succeeds, two that agree on it with an INVERT, and a fault. -/
theorem witness_outcome_from_inputs :
    SameInputs (pending 1) { pending 1 with crcOut := 5, count := 9, responses := [.written] } ∧
      decode (pending 1).cmd = .ok (.crc8 false false false) ∧ IsCrc (.crc8 false false false) ∧
      result (engineStep (pending 1)) = some (0, 0xF1, 0, []) ∧
      SameInputs (pending 3) { pending 3 with count := 9 } ∧ isNext (engineStep (pending 3)) = true ∧
      engineStep { pending 1 with len := 3 } = .fault (.unwrittenInput 2) :=
  ⟨⟨rfl, rfl, rfl, rfl, rfl, rfl, rfl, rfl, rfl, rfl, rfl, fun _ _ => rfl⟩, by decide, trivial, by decide +kernel,
    ⟨rfl, rfl, rfl, rfl, rfl, rfl, rfl, rfl, rfl, rfl, rfl, fun _ _ => rfl⟩, by decide +kernel, rfl⟩

theorem witness_length :
    { two with len := 257 }.params.bufCap < { two with len := 257 }.len.toNat ∧
      exec .invert8 { two with len := 257 } = .next (afterError .bufferLength { two with len := 257 }) :=
  ⟨by decide, rfl⟩

theorem witness_inverted_range :
    two.len.toNat ≤ two.params.bufCap ∧ ¬ RangesValid (.search8 false) { two with seedStart := 1 } ∧
      ¬ RangesValid (.search16 false) { two with xorStart := 1 } ∧ ¬ RangesValid .invrange8 { two with xorStart := 1 } ∧
      ¬ RangesValid .invrange16 { two with xorStart := 1 } ∧
      exec .invrange8 { two with xorStart := 1 } = .next (afterError .invalidRange { two with xorStart := 1 }) :=
  ⟨by decide, fun h => absurd h.1 (by decide), fun h => absurd h.2 (by decide),
    fun h => absurd (show XorRangeValid 8 { two with xorStart := 1 } from h) (by decide),
    fun h => absurd (show XorRangeValid 16 { two with xorStart := 1 } from h) (by decide), rfl⟩

theorem witness_unwritten :
    { two with len := 4 }.len.toNat ≤ params.bufCap ∧ RangesValid .invert8 { two with len := 4 } ∧
      bufRead two.buf 3 = none ∧ exec .invert8 { two with len := 4 } = .fault (.unwrittenInput 2) :=
  ⟨by decide, trivial, rfl, rfl⟩

/-- An exhausted command, and a completing one of each width with RESULT_CAP 2^W. -/
theorem witness_exhaustion :
    result (exec .invrange8 { two with params := { params with resultCap := 1 }, xorEnd := 1 }) = some (4, 0, 0, []) ∧
      isNext (exec .invert8 { two with params := { params with resultCap := 256 } }) = true ∧
      isNext (exec .invert16 two) = true ∧ 2 ^ commandWidth .invert8 ≤ 256 ∧
      2 ^ commandWidth .invert16 ≤ two.params.resultCap := by
  decide +kernel

theorem witness_widths : ((8 : Nat) = 8 ∨ (8 : Nat) = 16) ∧ ((16 : Nat) = 8 ∨ (16 : Nat) = 16) :=
  ⟨.inl rfl, .inr rfl⟩

theorem witness_transform : 0 < nine.length ∧ nine.length - 1 < nine.length ∧ (7 : Nat) < 8 := by decide

theorem witness_empty_buffer : (withBuf []).len = 0 := rfl

theorem witness_affine :
    (0x1021#16).getLsbD 0 = true ∧ (0x0006#16).getLsbD 0 = false ∧ (0x07#8).getLsbD 0 = true ∧
      (0x06#8).getLsbD 0 = false ∧ nine ≠ [] := by
  decide

theorem witness_zero_polynomial : ([0xAB] : List Byte) ≠ [] ∧ 2 ≤ ([0xAB, 0xCD] : List Byte).length := by decide

/-- A range of one value at the maximum, and the full range. -/
theorem witness_range :
    (0xFF#8) ≤ 0xFF#8 ∧ (0x00#8) ≤ 0xFF#8 ∧ (0xFF#8).toNat - (0x00#8).toNat = 255 ∧ (0xFFFF#16) ≤ 0xFFFF#16 := by decide

theorem witness_search_split : (0xFE#8) ≤ 0xFE#8 ∧ (0xFE#8) < 0xFF#8 ∧ (0#16) ≤ 0#16 ∧ (0#16) < 1#16 := by decide

theorem witness_predecessors :
    (0x07#8).getLsbD 0 = true ∧ (0x06#8).getLsbD 0 = false ∧ (0x05#8).getLsbD 0 = true ∧ (0x04#8).getLsbD 0 = false := by
  decide

/-- S12: no seed reaches an odd target with an even polynomial. -/
theorem witness_inversion : ∀ s : BitVec 8, coreW [0x00#8] 0x02#8 s ≠ 0x01#8 := by decide +kernel

theorem witness_generation :
    [0x12#8, 0x35#8].Nodup ∧ genStep [0x12#8, 0x35#8] true 0x06#8 = [0x89#8, 0x0A#8] := by decide

theorem witness_inversion_range :
    (0#8) ≤ BitVec.allOnes 8 ∧ { params with resultCap := 256 }.resultCap = 2 ^ commandWidth .invrange8 ∧
      params.resultCap = 2 ^ commandWidth .invrange16 ∧
      isNext (exec .invrange8 { two with params := { params with resultCap := 256 }, xorEnd := 0xFF }) = true ∧
      isNext (exec .invrange16 two) = true := by
  decide +kernel

theorem witness_acceptance :
    two.status.busy = false ∧ (pending 1).status.busy = true ∧ (⟨.poll, 1⟩ : Turn).event ≠ .reset ∧
      (⟨.write .w32 0x300000 2, 1⟩ : Turn).event ≠ .reset := by
  decide

/-- The last BUF word and both ends of the register file. -/
theorem witness_busy_rule :
    two.params.Valid ∧ (pending 1).status.busy = true ∧ two.status.busy = false ∧ 4 * 63 < two.params.bufCap ∧
      RegName.cmd ≠ .status ∧ RegName.count ≠ .status :=
  ⟨params_valid, rfl, rfl, by decide, by decide, by decide⟩

theorem witness_busy_reads :
    (pending 1).params.Valid ∧ (pending 1).status.busy = true ∧ 65535 < (pending 1).params.resultCap ∧
      bufRead (accept 1 (withBuf [1, 2, 3, 4])).buf 0 = some 1#8 ∧ bufRead (withBuf [1, 2, 3, 4]).buf 1 = some 2#8 ∧
      bufRead (withBuf [1, 2, 3, 4]).buf 2 = some 3#8 ∧ bufRead (withBuf [1, 2, 3, 4]).buf 3 = some 4#8 :=
  ⟨params_valid, rfl, by decide, rfl, rfl, rfl, rfl⟩

theorem witness_parameter_registers : RegName.len ∈ parameterRegs ∧ isNext (exec (.crc8 false false false) two) = true := by
  decide +kernel

theorem witness_reserved_bits :
    RegName.status ≠ .cmd ∧ (0x80000011#32).extractLsb' 8 24 ≠ 0#24 ∧ (0x00000100#32).extractLsb' 8 24 ≠ 0#24 := by decide

theorem witness_status_bits :
    (afterError .illegalCommand two).status.err = some .illegalCommand ∧ two.status.err = none ∧
      (afterError .invalidRange two).status.err = some .invalidRange ∧
      (afterError .bufferLength two).status.err = some .bufferLength ∧
      (afterError .resourceExhausted two).status.err = some .resourceExhausted ∧
      (0x00000004#32).getLsbD 2 = true ∧ (0xFFFFFFFB#32).getLsbD 2 = false := by
  decide

/-- Each way a flag changes: acceptance, completion, a dropped write, a clear. -/
theorem witness_flags :
    (nextOr two (step (facing [⟨.write .w32 0x300000 1, 0⟩] two))).status.busy = true ∧
      (nextOr (pending 1) (step (pending 1))).status.busy = false ∧
      (nextOr (pending 1) (step (facing [⟨.write .w32 0x300008 9, 1⟩] (pending 1)))).status.werr = true ∧
      (nextOr (pending 1) (step (facing [⟨.write .w32 0x3100FC 9, 1⟩] (pending 1)))).status.werr = true ∧
      (dropWrite two).status.werr = true ∧
      (nextOr two (step (facing [⟨.write .w32 0x300004 4, 0⟩] (dropWrite two)))).status.werr = false ∧
      isNext (exec .invert8 two) = true ∧ isNext (exec .invert8 { two with len := 3 }) = false := by
  decide +kernel

theorem witness_dropped_write : (pending 1).status.busy = true ∧ RegName.len ≠ .status ∧ 4 * 0 < params.bufCap := by decide

theorem witness_crc_out :
    (nextOr (pending 1) (step (pending 1))).crcOut ≠ (pending 1).crcOut ∧
      (nextOr (pending 1) (step (pending 1))).status.err = none := by
  decide +kernel

theorem witness_buf_writers :
    engineTurn (pending 1) = true ∧ isNext (step (pending 1)) = true ∧
      (nextOr two (step (facing [⟨.write .w32 0x3100FC 9, 0⟩] two))).buf ≠ two.buf := by
  decide +kernel

theorem witness_buf_word : (3 : Nat) < 4 * 1 ∧ 4 * 1 + 4 ≤ 8 := by decide

/-- A lane that is written beside one that is not, in the last word and in word 0. -/
theorem witness_unwritten_lanes :
    two.params.Valid ∧ 4 * 0 < two.params.bufCap ∧ 4 * 63 < two.params.bufCap ∧ bufRead two.buf (4 * 0 + 1) = some 0x34#8 ∧
      bufRead two.buf (4 * 0 + 2) = none ∧ bufRead two.buf (4 * 63 + 3) = none :=
  ⟨params_valid, by decide, by decide, rfl, rfl, rfl⟩

/-- Slot 3 is the last record, slot 4 the first beyond COUNT, slot 65535 the last of RES. -/
theorem witness_result_slots :
    Inv recorded ∧ recorded.status.busy = false ∧ 3 < recorded.count.toNat ∧ recorded.count.toNat ≤ 4 ∧
      recorded.count.toNat ≤ 65535 ∧ 65535 < recorded.params.resultCap ∧
      (nextOr (pending 3) (step (pending 3))).res ≠ (pending 3).res :=
  ⟨recorded_inv, rfl, by decide, by decide, by decide, by decide, by decide +kernel⟩

/-- Both ends of every reserved range are bad, and both ends of each window are good (R50, with BUF_CAP 256 and RESULT_CAP
65536; the RES window's own reserved range with RESULT_CAP 16). -/
theorem witness_bad_accesses :
    (∀ off ∈ [0x0A, 0x34, 0xFFFC, 0x10100, 0x1FFFC, 0x20000, 0x3FFFC, 0x80000, 0xFFFFC], BadAccess params .w32 off) ∧
      (∀ off ∈ [0x00, 0x30, 0x10000, 0x100FC, 0x40000, 0x7FFFC], ¬ BadAccess params .w32 off) ∧
      (∀ off ∈ [0x40040, 0x7FFFC], BadAccess { params with resultCap := 16 } .w32 off) ∧
      (∀ width ∈ [AccessWidth.w8, .w16, .w64, .burst], BadAccess params width 0) := by
  simp [BadAccess, params]

theorem witness_bus_errors :
    params.Valid ∧ (busError 0x300034 two).hostFault ≠ none ∧ isNext (step (busError 0x300034 two)) = true :=
  ⟨params_valid, nofun, rfl⟩

theorem witness_outside_range : 0x2FFFFF < two.params.base ∧ two.params.base + 0xFFFFF < 0x400000 := by decide

theorem witness_wrbuf :
    two.params.Valid ∧ two.status.busy = false ∧ two.hostFault = none ∧ nine.length ≤ two.params.bufCap :=
  ⟨params_valid, rfl, rfl, by decide⟩

end Sys2Proof.Tests
end

section
/-! SUPPORT. The invariant: it holds after reset, and every step keeps it. What a step does to the block is said once
(`step_changes`), up to the fields of the host agent; that each such change keeps `Inv` is one lemma per change. -/

namespace Sys2Proof.Machine

/-! ### The parameters (R7) -/

/-- A multiple of 2^20 below 2^ADDR_W leaves room for the whole block (R7). -/
theorem config_block_inside : Config.base + 2 ^ 20 ≤ 2 ^ Config.addrW := by
  have hlt : Config.rawBase % 2 ^ Config.rawAddrW < 2 ^ Config.rawAddrW := Nat.mod_lt _ (by positivity)
  calc Config.base + 2 ^ 20 = 2 ^ 20 * (Config.rawBase % 2 ^ Config.rawAddrW + 1) := by rw [Config.base, Nat.mul_succ]
    _ ≤ 2 ^ 20 * 2 ^ Config.rawAddrW := Nat.mul_le_mul_left _ hlt
    _ = 2 ^ Config.addrW := by rw [Config.addrW, Nat.pow_add]

/-- Whatever the opaque values are, the parameters built from them are legal (R7). -/
theorem paramsReset_valid : Params.reset.Valid where
  baseAligned := Nat.mul_mod_right _ _
  addrWMin := Nat.le_add_right _ _
  baseInside := config_block_inside
  bufCapAligned := Nat.mul_mod_right _ _
  bufCapMin := by simp only [Params.reset, Config.bufCap]; omega
  bufCapMax := by simp only [Params.reset, Config.bufCap]; omega
  resultCapMin := by simp only [Params.reset, Config.resultCap]; omega
  resultCapMax := by simp only [Params.reset, Config.resultCap]; omega

/-! ### What a step does to the block -/

theorem SameBlock.trans {s t u : State} (h : SameBlock s t) (h' : SameBlock t u) : SameBlock s u where
  command :=
    { params := h.command.params.trans h'.command.params
      cmd := h.command.cmd.trans h'.command.cmd
      poly := h.command.poly.trans h'.command.poly
      seed := h.command.seed.trans h'.command.seed
      xorOut := h.command.xorOut.trans h'.command.xorOut
      target := h.command.target.trans h'.command.target
      seedStart := h.command.seedStart.trans h'.command.seedStart
      seedEnd := h.command.seedEnd.trans h'.command.seedEnd
      xorStart := h.command.xorStart.trans h'.command.xorStart
      xorEnd := h.command.xorEnd.trans h'.command.xorEnd
      len := h.command.len.trans h'.command.len
      buf := h.command.buf.trans h'.command.buf }
  status := h.status.trans h'.status
  crcOut := h.crcOut.trans h'.crcOut
  count := h.count.trans h'.count
  res := h.res.trans h'.res

theorem sameBlock_busError (addr : Nat) (s : State) : SameBlock s (busError addr s) :=
  ⟨⟨rfl, rfl, rfl, rfl, rfl, rfl, rfl, rfl, rfl, rfl, rfl, rfl⟩, rfl, rfl, rfl, rfl⟩

theorem sameBlock_takeDraw (s : State) : SameBlock s (takeDraw s) :=
  ⟨⟨rfl, rfl, rfl, rfl, rfl, rfl, rfl, rfl, rfl, rfl, rfl, rfl⟩, rfl, rfl, rfl, rfl⟩

theorem sameBlock_setAgenda (l : List Turn) (s : State) : SameBlock s (setAgenda l s) :=
  ⟨⟨rfl, rfl, rfl, rfl, rfl, rfl, rfl, rfl, rfl, rfl, rfl, rfl⟩, rfl, rfl, rfl, rfl⟩

/-- A host read leaves the block alone (R60). -/
theorem sameBlock_hostRead (width : AccessWidth) (addr : Nat) (s : State) : SameBlock s (hostRead width addr s) := by
  rcases hostRead_cases width addr s with h | h | ⟨v, h⟩ | ⟨v, h⟩ <;> rw [h]
  · exact sameBlock_respond _ s
  · exact sameBlock_busError addr s
  · exact sameBlock_respond _ s
  · exact (sameBlock_takeDraw s).trans (sameBlock_respond _ _)

/-- A poll leaves the block alone (R84). -/
theorem sameBlock_hostPoll (lead : Nat) (s : State) : SameBlock s (hostPoll lead s) := by
  rw [hostPoll_eq]
  split
  · exact (sameBlock_respond _ s).trans (sameBlock_setAgenda _ _)
  · exact sameBlock_respond _ s

/-- What one step can do to the block: nothing, complete a command (R42), be reset (R200), drop a write (R57), or perform a
write to a register (R22 to R30) or to a BUF word (R53). -/
inductive BlockChange (s : State) : State → Prop where
  | unchanged : BlockChange s s
  | completed {w : Nat} (o : CmdOutcome w) : (∀ l, o = .okRecords l → l.length ≤ s.params.resultCap) →
      BlockChange s (complete o s)
  | reset : BlockChange s (resetBlock s)
  | dropped : s.status.busy = true → BlockChange s (dropWrite s)
  | register (r : RegName) (v : Word) : s.status.busy = false ∨ r = .status → BlockChange s (writeReg r v s)
  | word (k : Nat) (v : Word) : s.status.busy = false → 4 * k < s.params.bufCap →
      BlockChange s { s with buf := bufWriteWord s.buf (4 * k) v }

/-- A host write changes the block in one of these ways, the answer to the host aside. -/
theorem hostWrite_changes (width : AccessWidth) (addr : Nat) (v : Word) (s : State) :
    ∃ b, BlockChange s b ∧ SameBlock b (hostWrite width addr v s) := by
  rcases hostWrite_cases width addr v s with h | h | ⟨hb, _, _, h⟩ | ⟨r, hr, _, _, h⟩ | ⟨k, hb, _, _, hk, h⟩ <;> rw [h]
  · exact ⟨_, .unchanged, sameBlock_respond _ s⟩
  · exact ⟨_, .unchanged, sameBlock_busError addr s⟩
  · exact ⟨_, .dropped hb, sameBlock_respond _ _⟩
  · exact ⟨_, .register r v hr, sameBlock_respond _ _⟩
  · exact ⟨_, .word k v hb hk, sameBlock_respond _ _⟩

/-- A host event changes the block in one of these ways, what the host agent keeps for itself aside. -/
theorem deliver_changes (u : Turn) (s : State) : ∃ b, BlockChange s b ∧ SameBlock b (deliver u s) := by
  rcases deliver_cases u s with ⟨_, h⟩ | ⟨_, h⟩ | ⟨_, width, addr, _, h⟩ | ⟨_, width, addr, v, _, h⟩ | ⟨_, _, h⟩ <;> rw [h]
  · exact ⟨_, .unchanged, .refl s⟩
  · exact ⟨_, .reset, .refl _⟩
  · exact ⟨_, .unchanged, sameBlock_hostRead width addr s⟩
  · exact hostWrite_changes width addr v s
  · exact ⟨_, .unchanged, sameBlock_hostPoll u.lead s⟩

/-- Everything a step does to the block, the host agent's fields aside: its agenda before the change, and what it keeps for
itself after it. -/
theorem step_changes {s t : State} (h : step s = .next t) :
    ∃ l b, BlockChange (setAgenda l s) b ∧ SameBlock b t := by
  rcases step_next_cases h with ⟨_, he⟩ | ⟨_, _, rfl⟩ | ⟨_, u, rest, _, rfl⟩
  · obtain ⟨w, o, rfl, _, hl⟩ := engineStep_completes he
    exact ⟨s.agenda, _, .completed o hl, .refl _⟩
  · exact ⟨t.agenda, _, .unchanged, .refl t⟩
  · exact ⟨rest, deliver_changes u _⟩

theorem BlockChange.params_eq {s b : State} (h : BlockChange s b) : b.params = s.params := by
  cases h with
  | unchanged => rfl
  | completed o _ => exact complete_params o s
  | reset => rfl
  | dropped _ => rfl
  | register r v _ => exact writeReg_params r v s
  | word k v _ _ => rfl

/-- No step changes the parameters (R7). -/
theorem step_params {s t : State} (h : step s = .next t) : t.params = s.params := by
  obtain ⟨l, b, hb, hs⟩ := step_changes h
  exact hs.command.params.symm.trans hb.params_eq

/-! ### Each change keeps the invariant -/

/-- `Inv` reads the parameters, CMD, CRC_OUT, COUNT, the memories and three fields of STATUS, and nothing else. -/
theorem Inv.congr {s t : State} (h : Inv s) (hparams : t.params = s.params) (hcmd : t.cmd = s.cmd)
    (hcrc : t.crcOut = s.crcOut) (hcount : t.count = s.count) (hbuf : t.buf = s.buf) (hres : t.res = s.res)
    (hbusy : t.status.busy = s.status.busy) (hdone : t.status.done = s.status.done)
    (herr : t.status.err = s.status.err) : Inv t where
  params := hparams ▸ h.params
  bufCanonical := hbuf ▸ h.bufCanonical
  bufInside := by rw [hparams, hbuf]; exact h.bufInside
  resCount := by rw [hres, hcount]; exact h.resCount
  countInside := by rw [hcount, hparams]; exact h.countInside
  busyFlags := by rw [hbusy, hdone, herr]; exact h.busyFlags
  errFlags := by rw [herr, hdone, hcount]; exact h.errFlags
  fresh := by rw [hbusy, hdone, hcmd, hcrc, hcount]; exact h.fresh

theorem Inv.of_sameBlock {s t : State} (h : Inv s) (hs : SameBlock s t) : Inv t :=
  h.congr hs.command.params.symm hs.command.cmd.symm hs.crcOut.symm hs.count.symm hs.command.buf.symm hs.res.symm
    (by rw [hs.status]) (by rw [hs.status]) (by rw [hs.status])

/-- A reset block satisfies the invariant, whatever state it was in (R200). -/
theorem inv_resetBlock {s : State} (h : s.params.Valid) : Inv (resetBlock s) where
  params := h
  bufCanonical := rfl
  bufInside := rfl
  resCount := rfl
  countInside := Nat.zero_le _
  busyFlags := nofun
  errFlags := fun he => absurd rfl he
  fresh := fun _ _ => ⟨rfl, rfl, rfl⟩

/-- A command that completes without a record keeps the invariant, with an error or without one (R42). -/
theorem Inv.of_no_records {s t : State} (h : Inv s) (hparams : t.params = s.params) (hbuf : t.buf = s.buf)
    (hcount : t.count = 0) (hres : t.res = []) {e : Option CmdError} (hst : t.status = statusCompleted e s.status) :
    Inv t where
  params := hparams ▸ h.params
  bufCanonical := hbuf ▸ h.bufCanonical
  bufInside := by rw [hparams, hbuf]; exact h.bufInside
  resCount := by rw [hres, hcount]; rfl
  countInside := by rw [hcount]; exact Nat.zero_le _
  busyFlags := by rw [hst]; nofun
  errFlags := fun _ => ⟨by rw [hst]; rfl, hcount⟩
  fresh := by rw [hst]; nofun

/-- COUNT holds every number of records that RESULT_CAP allows (R30, R176). -/
theorem toNat_ofNat_count {p : Params} (h : p.Valid) {n : Nat} (hn : n ≤ p.resultCap) :
    (BitVec.ofNat 17 n).toNat = n := by
  have := h.resultCapMax
  rw [BitVec.toNat_ofNat, Nat.mod_eq_of_lt (by omega)]

/-- A command that completes with records that fit keeps the invariant (R42, R176). -/
theorem inv_complete_okRecords {s : State} (h : Inv s) {w : Nat} (l : List (BitVec w × BitVec w))
    (hl : l.length ≤ s.params.resultCap) : Inv (complete (.okRecords l) s) where
  params := h.params
  bufCanonical := h.bufCanonical
  bufInside := h.bufInside
  resCount := by
    rw [complete_okRecords_res, complete_okRecords_count, toNat_ofNat_count h.params hl, List.length_map]
  countInside := by rwa [complete_okRecords_count, toNat_ofNat_count h.params hl]
  busyFlags := nofun
  errFlags := fun he => absurd rfl he
  fresh := nofun

/-- Every completion whose records fit keeps the invariant (R42). -/
theorem inv_complete {s : State} (h : Inv s) {w : Nat} (o : CmdOutcome w)
    (hl : ∀ l, o = .okRecords l → l.length ≤ s.params.resultCap) : Inv (complete o s) := by
  cases o with
  | okCrc v => exact h.of_no_records rfl rfl rfl rfl (complete_okCrc_status v s)
  | okRecords l => exact inv_complete_okRecords h l (hl l rfl)
  | err e => exact h.of_no_records rfl rfl rfl rfl (complete_err_status e s)

/-- The busy drop keeps the invariant: WERR is none of its flags (R57). -/
theorem inv_dropWrite {s : State} (h : Inv s) : Inv (dropWrite s) :=
  h.congr rfl rfl rfl rfl rfl rfl rfl rfl rfl

/-- Acceptance keeps the invariant: it clears DONE and ERR (R40). -/
theorem inv_accept {s : State} (h : Inv s) (v : Word) : Inv (accept v s) where
  params := h.params
  bufCanonical := h.bufCanonical
  bufInside := h.bufInside
  resCount := h.resCount
  countInside := h.countInside
  busyFlags := fun _ => ⟨rfl, rfl⟩
  errFlags := fun he => absurd rfl he
  fresh := nofun

/-- A register write keeps the invariant: CMD's is acceptance, STATUS's touches WERR alone, and no other register is one
that the invariant reads (R22 to R30). -/
theorem inv_writeReg {s : State} (h : Inv s) (r : RegName) (v : Word) : Inv (writeReg r v s) := by
  cases r with
  | cmd => exact inv_accept h v
  | status => exact h.congr rfl rfl rfl rfl rfl rfl (statusWritten_busy v _) (statusWritten_done v _) (statusWritten_err v _)
  | crcOut | count => exact h
  | poly | seed | xorOut | target | seedStart | seedEnd | xorStart | xorEnd | len =>
    exact h.congr rfl rfl rfl rfl rfl rfl rfl rfl rfl

/-- A write of a BUF word keeps the invariant: BUF_CAP is a multiple of 4, so the whole word is inside (R7, R53). -/
theorem inv_bufWriteWord {s : State} (h : Inv s) {k : Nat} (hk : 4 * k < s.params.bufCap) (v : Word) :
    Inv { s with buf := bufWriteWord s.buf (4 * k) v } :=
  have hword : 4 * k + 3 < s.params.bufCap := by
    have := h.params.bufCapAligned
    omega
  { h with
    bufCanonical := bufWf_bufWriteWord _ v h.bufCanonical
    bufInside := bufBelow_bufWriteWord v hword h.bufInside }

/-- Whatever a step does to the block keeps the invariant. -/
theorem BlockChange.keeps_inv {s b : State} (hc : BlockChange s b) (h : Inv s) : Inv b := by
  cases hc with
  | unchanged => exact h
  | completed o hl => exact inv_complete h o hl
  | reset => exact inv_resetBlock h.params
  | dropped _ => exact inv_dropWrite h
  | register r v _ => exact inv_writeReg h r v
  | word k v _ hk => exact inv_bufWriteWord h hk v

/-- Every step keeps the invariant. -/
theorem step_keeps_inv {s t : State} (h : Inv s) (hs : step s = .next t) : Inv t := by
  obtain ⟨l, b, hb, hbt⟩ := step_changes hs
  exact (hb.keeps_inv (h.of_sameBlock (sameBlock_setAgenda l s))).of_sameBlock hbt

/-! ### The obligations -/

/-- Settles O12: `step_changes` says what a step does to the block, and each such change keeps the invariant and the
parameters. -/
theorem stepKeepsInvariant : Obligations.StepKeepsInvariant :=
  ⟨fun _ _ h hs => step_keeps_inv h hs, fun _ _ hs => step_params hs⟩

/-- Settles O11: the state after reset is a reset block with legal parameters, and no byte of its BUF is written. -/
theorem resetMeetsInvariant : Obligations.ResetMeetsInvariant :=
  ⟨inv_resetBlock (s := State.reset) paramsReset_valid, fun _ => ⟨rfl, rfl, rfl⟩⟩

end Sys2Proof.Machine
end

section
/-! SUPPORT. How a command ends (R42), whatever it computes: what every completion writes to STATUS, what every command leaves
alone, and that its outcome does not depend on STATUS (R45). -/

namespace Sys2Proof.Machine

/-! ### What every completion does -/

/-- Every completion writes STATUS as R42 says: the error, if there is one, is all that differs. -/
theorem complete_status {w : Nat} (o : CmdOutcome w) (s : State) :
    ∃ e, (complete o s).status = statusCompleted e s.status := by
  cases o with
  | okCrc v => exact ⟨none, rfl⟩
  | okRecords l => exact ⟨none, rfl⟩
  | err e => exact ⟨some e, rfl⟩

@[simp] theorem complete_busy {w : Nat} (o : CmdOutcome w) (s : State) : (complete o s).status.busy = false := by
  obtain ⟨e, h⟩ := complete_status o s
  rw [h, statusCompleted_busy]

@[simp] theorem complete_done {w : Nat} (o : CmdOutcome w) (s : State) : (complete o s).status.done = true := by
  obtain ⟨e, h⟩ := complete_status o s
  rw [h, statusCompleted_done]

@[simp] theorem complete_werr {w : Nat} (o : CmdOutcome w) (s : State) : (complete o s).status.werr = s.status.werr := by
  obtain ⟨e, h⟩ := complete_status o s
  rw [h, statusCompleted_werr]

/-- Only the value of a CRC command reaches CRC_OUT, and then without an error (R29, R42). -/
theorem complete_crcOut {w : Nat} (o : CmdOutcome w) (s : State) :
    (complete o s).crcOut = s.crcOut ∨ ((∃ v, o = .okCrc v) ∧ (complete o s).status.err = none) := by
  cases o with
  | okCrc v => exact .inr ⟨⟨v, rfl⟩, rfl⟩
  | okRecords l => exact .inl rfl
  | err e => exact .inl rfl

/-- A parameter register is none of what a completion writes (R32, R42). -/
theorem readReg_complete {r : RegName} (hr : r ∈ parameterRegs) {w : Nat} (o : CmdOutcome w) (s : State) :
    readReg r (complete o s) = readReg r s := by
  cases r with
  | cmd | status | crcOut | count => simp [parameterRegs] at hr
  | poly | seed | xorOut | target | seedStart | seedEnd | xorStart | xorEnd | len => simp [readReg]

/-! ### What every command does -/

/-- A command completes, or faults on an unwritten byte (R67, R172). -/
theorem exec_completes_or_faults (i : Instr) (s : State) :
    (∃ t, exec i s = .next t ∧ t.status.busy = false) ∨ (∃ j, exec i s = .fault (.unwrittenInput j)) := by
  cases h : exec i s with
  | next t =>
    obtain ⟨w, o, rfl, _, _⟩ := exec_next_completes h
    exact .inl ⟨_, rfl, complete_busy o s⟩
  | fault f =>
    have he := exec_ends i s
    rw [h] at he
    cases he with
    | unwritten k _ _ _ => exact .inr ⟨k, rfl⟩
  | refused r => exact absurd h (exec_not_refused i s r)

/-- Only a CRC command writes CRC_OUT (R29). -/
theorem exec_crcOut {i : Instr} {s t : State} (h : exec i s = .next t) (hi : ¬ IsCrc i) : t.crcOut = s.crcOut := by
  obtain ⟨w, o, rfl, hv, _⟩ := exec_next_completes h
  rcases complete_crcOut o s with h' | ⟨⟨v, ho⟩, _⟩
  · exact h'
  · exact absurd ho (hv hi v)

/-- A `crc.8` without an error leaves a value of 8 bits in CRC_OUT (R29, R111). -/
theorem exec_crc8_crcOut {s t : State} {ref rb rf : Bool} (h : exec (.crc8 ref rb rf) s = .next t)
    (herr : t.status.err = none) : t.crcOut.toNat < 256 := by
  have he := exec_ends (.crc8 ref rb rf) s
  rw [h] at he
  cases he with
  | length _ => cases herr
  | range _ _ => cases herr
  | computed buf _ _ _ hc =>
    cases hc with
    | @crcValue w v _ hw =>
      calc (v.setWidth 16).toNat ≤ v.toNat := by simpa using Nat.mod_le _ _
        _ < 2 ^ w := v.isLt
        _ ≤ 256 := Nat.pow_le_pow_right (by decide) hw
    | records _ hi _ => exact absurd trivial hi
    | exhausted hi => exact absurd trivial hi

/-! ### No command reads STATUS (R45) -/

/-- The state with another STATUS. -/
def setStatus (st : Status) (s : State) : State :=
  { s with status := st }

/-- The state with another WERR. -/
def setWerr (b : Bool) (s : State) : State :=
  setStatus { s.status with werr := b } s

/-- A function applied to the next state, when there is one. -/
def mapNext (f : State → State) : Host.Outcome State Fault Refusal → Host.Outcome State Fault Refusal
  | .next s => .next (f s)
  | .fault r => .fault r
  | .refused r => .refused r

/-- A completion overwrites every bit of STATUS but WERR, which passes through (R42). -/
theorem complete_setStatus {w : Nat} (o : CmdOutcome w) (st : Status) (s : State) :
    complete o (setStatus st s) = setWerr st.werr (complete o s) := by
  cases o <;> rfl

/-- Validation does not read STATUS (R172). -/
theorem runCommand_setStatus {w : Nat} (s : State) (st : Status) (e : Option CmdError) (body : List Byte → CmdOutcome w) :
    runCommand (setStatus st s) e body = mapNext (setWerr st.werr) (runCommand s e body) := by
  rcases runCommand_cases s e body with ⟨hl, h⟩ | ⟨hl, e, rfl, h⟩ | ⟨hl, rfl, k, hk, h⟩ | ⟨hl, rfl, buf, hk, h⟩ <;> rw [h]
  · rw [runCommand_length (s := setStatus st s) hl, complete_setStatus]; rfl
  · rw [runCommand_range (s := setStatus st s) hl, complete_setStatus]; rfl
  · rw [runCommand_fault (s := setStatus st s) hl hk]; rfl
  · rw [runCommand_ok (s := setStatus st s) ⟨hl, hk⟩, complete_setStatus]; rfl

/-- No command reads STATUS: whatever it is, the outcome is the same, with WERR passing through. -/
theorem exec_setStatus (i : Instr) (s : State) (st : Status) :
    exec i (setStatus st s) = mapNext (setWerr st.werr) (exec i s) := by
  cases i with
  | crc8 | crc16 | invert8 | invert16 => exact runCommand_setStatus s st none _
  | search8 | search16 | invrange8 | invrange16 => exact runCommand_setStatus s st _ _

end Sys2Proof.Machine
end

section
/-! SUPPORT. What a host event can do: to STATUS, whatever the state (R45); to the block, while BUSY is 1 (R33, R57); to
CRC_OUT (R29); and to the agenda. -/

namespace Sys2Proof.Machine

/-! ### STATUS under host events (R45) -/

/-- A write to STATUS touches WERR alone (R23). -/
theorem statusWritten_eq (v : Word) (st : Status) : statusWritten v st = { st with werr := st.werr && !v.getLsbD 2 } := by
  unfold statusWritten
  split <;> simp_all

/-- A register write changes STATUS only where the register is CMD or STATUS itself (R23, R40). -/
theorem writeReg_status {r : RegName} (hc : r ≠ .cmd) (hs : r ≠ .status) (v : Word) (s : State) :
    (writeReg r v s).status = s.status := by
  cases r with
  | cmd => exact absurd rfl hc
  | status => exact absurd rfl hs
  | poly | seed | xorOut | target | seedStart | seedEnd | xorStart | xorEnd | len | crcOut | count => rfl

/-- What a host event makes of STATUS, where the block's parameters are `p`. -/
inductive HostStatus (p : Params) (st : Status) : HostEvent → Status → Prop where
  /-- Most events leave it alone. -/
  | kept (e : HostEvent) : HostStatus p st e st
  /-- Reset clears it (R200). -/
  | reset : HostStatus p st .reset Status.reset
  /-- A busy write to a register other than STATUS is dropped (R57). -/
  | droppedReg (r : RegName) (v : Word) : st.busy = true → r ≠ .status →
      HostStatus p st (.write .w32 (p.base + regOffset r) v) (statusDropped st)
  /-- A busy write to BUF is dropped (R57). -/
  | droppedBuf (k : Nat) (v : Word) : st.busy = true → 4 * k < p.bufCap →
      HostStatus p st (.write .w32 (p.base + 0x10000 + 4 * k) v) (statusDropped st)
  /-- An idle write to CMD is accepted (R40). -/
  | accepted (v : Word) : st.busy = false →
      HostStatus p st (.write .w32 (p.base + regOffset .cmd) v) (statusAccepted st)
  /-- A write to STATUS (R23). -/
  | written (v : Word) : HostStatus p st (.write .w32 (p.base + regOffset .status) v) (statusWritten v st)

/-- What a host write makes of STATUS. -/
theorem hostWrite_status (width : AccessWidth) (addr : Nat) (v : Word) (s : State) :
    HostStatus s.params s.status (.write width addr v) (hostWrite width addr v s).status := by
  rcases hostWrite_cases width addr v s with h | h | ⟨hb, rfl, ⟨r, hr, rfl⟩ | ⟨k, rfl, hk⟩, h⟩ | ⟨r, hr, rfl, rfl, h⟩ |
    ⟨k, _, _, _, _, h⟩ <;> rw [h]
  · exact .kept _
  · exact .kept _
  · exact .droppedReg r v hb hr
  · exact .droppedBuf k v hb hk
  · by_cases hs : r = .status
    · subst hs; exact .written v
    · by_cases hc : r = .cmd
      · subst hc; exact .accepted v (hr.resolve_right hs)
      · rw [respond_status, writeReg_status hc hs]; exact .kept _
  · exact .kept _

/-- What the delivery of an event makes of STATUS. -/
theorem deliver_status (u : Turn) (s : State) : HostStatus s.params s.status u.event (deliver u s).status := by
  rcases deliver_cases u s with ⟨_, h⟩ | ⟨he, h⟩ | ⟨_, width, addr, _, h⟩ | ⟨_, width, addr, v, he, h⟩ | ⟨_, _, h⟩ <;> rw [h]
  · exact .kept _
  · rw [he]; exact .reset
  · rw [← (sameBlock_hostRead width addr s).status]; exact .kept _
  · rw [he]; exact hostWrite_status width addr v s
  · rw [← (sameBlock_hostPoll u.lead s).status]; exact .kept _

/-- Everything a step can do to STATUS: leave it, complete a command (R42), or what the host's next event does. -/
theorem step_status {s t : State} (h : step s = .next t) :
    t.status = s.status ∨ (engineTurn s = true ∧ ∃ e, t.status = statusCompleted e s.status) ∨
      ∃ e, nextEvent s = some e ∧ HostStatus s.params s.status e t.status := by
  rcases step_next_cases h with ⟨he, h⟩ | ⟨_, _, rfl⟩ | ⟨_, u, rest, ha, rfl⟩
  · obtain ⟨w, o, rfl, _, _⟩ := engineStep_completes h
    exact .inr (.inl ⟨he, complete_status o s⟩)
  · exact .inl rfl
  · exact .inr (.inr ⟨u.event, by simp [nextEvent, ha], deliver_status u (setAgenda rest s)⟩)

/-! ### The block while BUSY is 1 (R33, R57) -/

/-- A busy host write changes nothing of the block but WERR. -/
theorem hostWrite_busy {s : State} (hb : s.status.busy = true) (width : AccessWidth) (addr : Nat) (v : Word) :
    ∃ b, SameBlock (setWerr b s) (hostWrite width addr v s) := by
  rcases hostWrite_cases width addr v s with h | h | ⟨_, _, _, h⟩ | ⟨r, hr, _, _, h⟩ | ⟨k, hi, _⟩
  · exact ⟨s.status.werr, h ▸ sameBlock_respond _ s⟩
  · exact ⟨s.status.werr, h ▸ sameBlock_busError addr s⟩
  · exact ⟨true, h ▸ sameBlock_respond _ _⟩
  · obtain rfl := hr.resolve_left (by simp [hb])
    rw [h, writeReg, statusWritten_eq]
    exact ⟨_, sameBlock_respond _ _⟩
  · simp [hb] at hi

/-- While BUSY is 1 no event but reset changes anything of the block but WERR. -/
theorem deliver_busy {s : State} (hb : s.status.busy = true) {u : Turn} (hu : u.event ≠ .reset) :
    ∃ b, SameBlock (setWerr b s) (deliver u s) := by
  rcases deliver_cases u s with ⟨_, h⟩ | ⟨he, _⟩ | ⟨_, width, addr, _, h⟩ | ⟨_, width, addr, v, _, h⟩ | ⟨_, _, h⟩
  · exact ⟨s.status.werr, by rw [h]; exact .refl s⟩
  · exact absurd he hu
  · exact ⟨s.status.werr, h ▸ sameBlock_hostRead width addr s⟩
  · exact h ▸ hostWrite_busy hb width addr v
  · exact ⟨s.status.werr, h ▸ sameBlock_hostPoll u.lead s⟩

/-! ### CRC_OUT (R29) -/

/-- No host write changes CRC_OUT. -/
@[simp] theorem hostWrite_crcOut (width : AccessWidth) (addr : Nat) (v : Word) (s : State) :
    (hostWrite width addr v s).crcOut = s.crcOut := by
  rcases hostWrite_cases width addr v s with h | h | ⟨_, _, _, h⟩ | ⟨r, _, _, _, h⟩ | ⟨k, _, _, _, _, h⟩ <;> simp [h]

/-- No host event but reset changes CRC_OUT. -/
theorem deliver_crcOut (u : Turn) (s : State) : (deliver u s).crcOut = s.crcOut ∨ u.event = .reset := by
  rcases deliver_cases u s with ⟨_, h⟩ | ⟨he, _⟩ | ⟨_, width, addr, _, h⟩ | ⟨_, width, addr, v, _, h⟩ | ⟨_, _, h⟩
  · exact .inl (by rw [h])
  · exact .inr he
  · exact .inl (by rw [h, ← (sameBlock_hostRead width addr s).crcOut])
  · exact .inl (by rw [h, hostWrite_crcOut])
  · exact .inl (by rw [h, ← (sameBlock_hostPoll u.lead s).crcOut])

/-! ### The agenda -/

@[simp] theorem hostRead_agenda (width : AccessWidth) (addr : Nat) (s : State) :
    (hostRead width addr s).agenda = s.agenda := by
  rcases hostRead_cases width addr s with h | h | ⟨v, h⟩ | ⟨v, h⟩ <;> simp [h]

@[simp] theorem hostWrite_agenda (width : AccessWidth) (addr : Nat) (v : Word) (s : State) :
    (hostWrite width addr v s).agenda = s.agenda := by
  rcases hostWrite_cases width addr v s with h | h | ⟨_, _, _, h⟩ | ⟨r, _, _, _, h⟩ | ⟨k, _, _, _, _, h⟩ <;> simp [h]

/-- Only a poll comes back to the agenda, its lead one lower (R84). -/
theorem deliver_agenda (u : Turn) (s : State) :
    (deliver u s).agenda = s.agenda ∨ (deliver u s).agenda = ⟨.poll, u.lead - 1⟩ :: s.agenda := by
  rcases deliver_cases u s with ⟨_, h⟩ | ⟨_, h⟩ | ⟨_, width, addr, _, h⟩ | ⟨_, width, addr, v, _, h⟩ | ⟨_, _, h⟩ <;> rw [h]
  · exact .inl rfl
  · exact .inl rfl
  · exact .inl (hostRead_agenda width addr s)
  · exact .inl (hostWrite_agenda width addr v s)
  · rw [hostPoll_eq]
    split
    · exact .inr rfl
    · exact .inl rfl

end Sys2Proof.Machine
end

section
/-! SUPPORT. A pending command ends (R43): each host move uses up one of the lead, and then the engine moves. -/

namespace Sys2Proof.Machine

/-- An engine step completes, or faults on an unwritten byte (R41, R67). -/
theorem engineStep_completes_or_faults (s : State) :
    (∃ t, engineStep s = .next t ∧ t.status.busy = false) ∨ (∃ j, engineStep s = .fault (.unwrittenInput j)) := by
  rcases engineStep_cases s with ⟨i, _, h⟩ | ⟨e, _, h⟩ <;> rw [h]
  · exact exec_completes_or_faults i s
  · exact .inl ⟨_, rfl, rfl⟩

/-- A busy block waits for the host only where the host's next event has lead left (R43). -/
theorem exists_lead_of_hostTurn {s : State} (hb : s.status.busy = true) (he : engineTurn s = false) :
    ∃ u rest, s.agenda = u :: rest ∧ 0 < u.lead := by
  unfold engineTurn at he
  cases ha : s.agenda with
  | nil => simp [ha, hb] at he
  | cons u rest =>
    refine ⟨u, rest, rfl, Nat.pos_of_ne_zero fun h0 => ?_⟩
    simp [ha, hb, h0] at he

/-- A delivery leaves at most the lead of the rest, and of its own event one less. -/
theorem leadTotal_deliver_le (u : Turn) (s : State) :
    leadTotal (deliver u s).agenda ≤ u.lead - 1 + leadTotal s.agenda := by
  rcases deliver_agenda u s with h | h <;> rw [h]
  · exact Nat.le_add_left _ _
  · exact le_rfl

/-- A busy block's host move uses up lead. -/
theorem hostTurn_uses_lead {s : State} (hb : s.status.busy = true) (he : engineTurn s = false) :
    ∃ t, step s = .next t ∧ leadTotal t.agenda < leadTotal s.agenda := by
  obtain ⟨u, rest, ha, hu⟩ := exists_lead_of_hostTurn hb he
  refine ⟨deliver u (setAgenda rest s), by rw [step_host he, hostStep, ha], ?_⟩
  have hle := leadTotal_deliver_le u (setAgenda rest s)
  rw [ha, leadTotal]
  rw [setAgenda_agenda] at hle
  omega

/-- After `k` steps BUSY is 0, or a step of them faulted on an unwritten byte. -/
def EndedAfter (k : Nat) (s : State) : Prop :=
  (∃ t : State, Host.Core.run core k s = .next t ∧ t.status.busy = false) ∨
    (∃ j, Host.Core.run core k s = .fault (.unwrittenInput j))

theorem endedAfter_zero {s : State} (h : s.status.busy = false) : EndedAfter 0 s :=
  .inl ⟨s, rfl, h⟩

theorem run_succ {s t : State} (h : step s = .next t) (k : Nat) :
    Host.Core.run core (k + 1) s = Host.Core.run core k t := by
  have hc : core.step s = .next t := h
  simp only [Host.Core.run, hc]

theorem EndedAfter.succ {s t : State} (h : step s = .next t) {k : Nat} (hk : EndedAfter k t) : EndedAfter (k + 1) s := by
  unfold EndedAfter
  rw [run_succ h]
  exact hk

/-- The engine's step ends the command (R41, R42). -/
theorem endedAfter_one_of_engineTurn {s : State} (he : engineTurn s = true) : EndedAfter 1 s := by
  rcases engineStep_completes_or_faults s with ⟨t, h, hb⟩ | ⟨j, h⟩ <;> rw [← step_engine he] at h
  · exact (endedAfter_zero hb).succ h
  · have hc : core.step s = .fault (.unwrittenInput j) := h
    exact .inr ⟨j, by simp only [Host.Core.run, hc]⟩

/-- R43, by induction on the lead: the engine moves, or the host does and less lead is left. -/
theorem exists_endedAfter {s : State} (hb : s.status.busy = true) :
    ∃ k, k ≤ leadTotal s.agenda + 1 ∧ EndedAfter k s := by
  induction hn : leadTotal s.agenda using Nat.strong_induction_on generalizing s with
  | h n ih =>
    cases he : engineTurn s with
    | true => exact ⟨1, by omega, endedAfter_one_of_engineTurn he⟩
    | false =>
      obtain ⟨t, ht, hlt⟩ := hostTurn_uses_lead hb he
      cases hbt : t.status.busy with
      | false => exact ⟨1, by omega, (endedAfter_zero hbt).succ ht⟩
      | true =>
        obtain ⟨k, hk, hend⟩ := ih _ (hn ▸ hlt) hbt rfl
        exact ⟨k + 1, by omega, hend.succ ht⟩

/-- Settles O8, by induction on the lead that the agenda has left. -/
theorem busyEndsWithinLead : Obligations.BusyEndsWithinLead := fun _ hb => exists_endedAfter hb

end Sys2Proof.Machine
end

section
/-! SUPPORT. Registers as words: which bits they implement (R21, R37), what a read returns after a write (R32), and the bits of
STATUS (R23); and command words as they are read back (R77, R80). -/

namespace Sys2Proof.Machine

/-! ### A narrow field in a 32-bit word -/

/-- The bits of a word that a field of `n` bits, at bit 0, has room for. -/
def fieldMask (n : Nat) : Word :=
  (BitVec.allOnes n).setWidth 32

theorem fieldMask_16 : fieldMask 16 = 0x0000FFFF#32 := by decide

theorem fieldMask_17 : fieldMask 17 = 0x0001FFFF#32 := by decide

/-- A field read as a word has no bit outside the field. -/
theorem setWidth_and_not_fieldMask {n : Nat} (x : BitVec n) : x.setWidth 32 &&& ~~~ fieldMask n = 0#32 := by
  ext i hi
  by_cases h : i < n
  · simp [fieldMask, h]
  · simp [fieldMask, BitVec.getLsbD_of_ge x i (Nat.le_of_not_lt h)]

/-- A field stores the bits of the field and ignores the others. -/
theorem setWidth_and_fieldMask (n : Nat) (v : Word) : (v &&& fieldMask n).setWidth n = v.setWidth n := by
  ext i hi
  by_cases h : i < 32
  · simp [fieldMask, hi, h]
  · simp [BitVec.getLsbD_of_ge _ i (Nat.le_of_not_lt h)]

/-- A field read as a word returns the bits of the field that were written. -/
theorem setWidth_setWidth_eq_and (n : Nat) (v : Word) : (v.setWidth n).setWidth 32 = v &&& fieldMask n := by
  ext i hi
  by_cases h : i < n <;> simp [fieldMask, hi, h]

/-! ### Reserved bits (R37) and parameter registers (R32) -/

/-- STATUS has no bit outside its implemented ones (R23). -/
theorem statusWord_reserved (st : Status) : statusWord st &&& ~~~ 0x00000077#32 = 0#32 := by
  have key : ∀ (c : BitVec 3) (w d b : Bool),
      (0#25 ++ c ++ 0#1 ++ BitVec.ofBool w ++ BitVec.ofBool d ++ BitVec.ofBool b) &&& ~~~ 0x00000077#32 = 0#32 := by
    decide
  exact key _ _ _ _

/-- No register holds a reserved bit (R21, R37). -/
theorem readReg_reserved (r : RegName) (s : State) : readReg r s &&& ~~~ implemented r = 0#32 := by
  cases r with
  | cmd => simp [readReg, implemented]
  | status => exact statusWord_reserved s.status
  | poly | seed | xorOut | target | seedStart | seedEnd | xorStart | xorEnd | crcOut =>
    exact setWidth_and_not_fieldMask _
  | len | count => exact setWidth_and_not_fieldMask _

/-- A write acts as the write of its implemented bits alone (R37). -/
theorem writeReg_and_implemented {r : RegName} (hr : r ≠ .cmd) (v : Word) (s : State) :
    writeReg r (v &&& implemented r) s = writeReg r v s := by
  cases r with
  | cmd => exact absurd rfl hr
  | status => simp [writeReg, implemented, statusWritten]
  | poly | seed | xorOut | target | seedStart | seedEnd | xorStart | xorEnd =>
    simp only [writeReg, implemented, ← fieldMask_16, setWidth_and_fieldMask]
  | len => simp only [writeReg, implemented, ← fieldMask_17, setWidth_and_fieldMask]
  | crcOut | count => rfl

/-- A parameter register returns the implemented bits written (R32). -/
theorem readReg_writeReg_same {r : RegName} (hr : r ∈ parameterRegs) (v : Word) (s : State) :
    readReg r (writeReg r v s) = v &&& implemented r := by
  cases r with
  | cmd | status | crcOut | count => simp [parameterRegs] at hr
  | poly | seed | xorOut | target | seedStart | seedEnd | xorStart | xorEnd =>
    exact setWidth_setWidth_eq_and 16 v
  | len => exact setWidth_setWidth_eq_and 17 v

/-- A write to a parameter register is read from no other register. -/
theorem readReg_writeReg_other {r r' : RegName} (hr : r ∈ parameterRegs) (h : r' ≠ r) (v : Word) (s : State) :
    readReg r' (writeReg r v s) = readReg r' s := by
  cases r with
  | cmd | status | crcOut | count => simp [parameterRegs] at hr
  | poly | seed | xorOut | target | seedStart | seedEnd | xorStart | xorEnd | len =>
    cases r' <;> simp [readReg, writeReg] at h ⊢

/-! ### The bits of STATUS (R23) -/

theorem statusWord_flags (st : Status) :
    (statusWord st).getLsbD 0 = st.busy ∧ (statusWord st).getLsbD 1 = st.done ∧ (statusWord st).getLsbD 2 = st.werr ∧
      (statusWord st).getLsbD 3 = false ∧ (statusWord st).extractLsb' 7 25 = 0#25 := by
  have key : ∀ (c : BitVec 3) (w d b : Bool) (x : Word),
      x = 0#25 ++ c ++ 0#1 ++ BitVec.ofBool w ++ BitVec.ofBool d ++ BitVec.ofBool b →
      x.getLsbD 0 = b ∧ x.getLsbD 1 = d ∧ x.getLsbD 2 = w ∧ x.getLsbD 3 = false ∧ x.extractLsb' 7 25 = 0#25 := by
    rintro c w d b x rfl
    revert c w d b
    decide
  exact key _ _ _ _ _ rfl

/-- Bits [6:4] of STATUS are the error's code (R171). -/
theorem readReg_status_err {s : State} {e : Option CmdError} (h : s.status.err = e) :
    (readReg .status s).extractLsb' 4 3 = errCode e := by
  have key : ∀ (c : BitVec 3) (w d b : Bool),
      (0#25 ++ c ++ 0#1 ++ BitVec.ofBool w ++ BitVec.ofBool d ++ BitVec.ofBool b).extractLsb' 4 3 = c := by
    decide
  exact h ▸ key (errCode s.status.err) _ _ _

/-! ### Command words -/

/-- Fields are read back from the word that carries them (R70). -/
theorem decodeFields_encodeFields (f : Fields) : decodeFields (encodeFields f) = .ok f := by
  obtain ⟨op, w16, ref, rb, rf⟩ := f
  cases op with
  | crc | search | invert | invrange => revert w16 ref rb rf; decide

theorem instr_wf (i : Instr) : i.wf = true := by
  cases i <;> rfl

theorem toInstr_fields (i : Instr) : i.fields.toInstr = i := by
  cases i <;> rfl

/-- A command is read back from its own word (R77, R80). -/
theorem decode_encode (i : Instr) : decode (encode i) = .ok i := by
  have hwf : i.fields.wf = true := instr_wf i
  simp only [decode, encode, decodeFields_encodeFields, hwf, toInstr_fields, if_true]

/-- A bit of [31:8] makes a word illegal (R75). -/
theorem decode_reservedBits {v : Word} (h : v.extractLsb' 8 24 ≠ 0#24) : decode v = .error .reservedBits := by
  simp only [decode, decodeFields, if_pos h]

/-- A table row of 32 bits gives the word itself (R70). -/
theorem tableWord_toNat (c : Word) : tableWord 32 c.toNat = c := by
  rw [tableWord, Nat.mod_eq_of_lt c.isLt, BitVec.ofNat_toNat, BitVec.setWidth_eq]

/-- With a word placed the engine moves next. -/
theorem engineTurn_placeCommand (c : Word) (s : State) : engineTurn (placeCommand c s) = true := by
  cases h : s.agenda <;> simp [engineTurn, h, yieldTurn]

/-- A word that reads as a command runs as that command (R41). -/
theorem engineStep_of_decode {s : State} {i : Instr} (h : decode s.cmd = .ok i) : engineStep s = exec i s := by
  simp only [engineStep, h]

end Sys2Proof.Machine
end

section
/-! SUPPORT. The statements about registers, flags and commands (spec/10_state.md), each from the lemmas above. -/

namespace Sys2Proof.Machine

/-! ### Flags (R45) -/

/-- BUSY, DONE and ERR change only by an engine step, reset, or an idle CMD write (R40, R42, R200). -/
theorem step_changes_flags {s t : State} (h : step s = .next t)
    (hne : t.status.busy ≠ s.status.busy ∨ t.status.done ≠ s.status.done ∨ t.status.err ≠ s.status.err) :
    engineTurn s = true ∨ nextEvent s = some .reset ∨
      (s.status.busy = false ∧ ∃ v, nextEvent s = some (.write .w32 (s.params.base + 0x00) v)) := by
  rcases step_status h with hst | ⟨he, _⟩ | ⟨e, hn, hst⟩
  · simp [hst] at hne
  · exact .inl he
  · generalize t.status = st at hst hne
    cases hst with
    | kept => simp at hne
    | reset => exact .inr (.inl hn)
    | droppedReg | droppedBuf => simp at hne
    | accepted v hb => exact .inr (.inr ⟨hb, v, hn⟩)
    | written v => simp at hne

/-- WERR is set only by a write that the busy rule drops (R57). -/
theorem step_sets_werr {s t : State} (h : step s = .next t) (h0 : s.status.werr = false) (h1 : t.status.werr = true) :
    s.status.busy = true ∧
      ((∃ r v, r ≠ .status ∧ nextEvent s = some (.write .w32 (s.params.base + regOffset r) v)) ∨
        (∃ k v, 4 * k < s.params.bufCap ∧ nextEvent s = some (.write .w32 (s.params.base + 0x10000 + 4 * k) v))) := by
  rcases step_status h with hst | ⟨_, e, hst⟩ | ⟨e, hn, hst⟩
  · simp [hst, h0] at h1
  · simp [hst, h0] at h1
  · generalize t.status = st at hst h1
    cases hst with
    | kept => simp [h0] at h1
    | reset => cases h1
    | droppedReg r v hb hr => exact ⟨hb, .inl ⟨r, v, hr, hn⟩⟩
    | droppedBuf k v hb hk => exact ⟨hb, .inr ⟨k, v, hk, hn⟩⟩
    | accepted v _ => simp [h0] at h1
    | written v => simp [h0] at h1

/-- WERR is cleared only by reset or by a write to STATUS with bit 2 set (R23). -/
theorem step_clears_werr {s t : State} (h : step s = .next t) (h1 : s.status.werr = true) (h0 : t.status.werr = false) :
    nextEvent s = some .reset ∨
      ∃ v, nextEvent s = some (.write .w32 (s.params.base + 0x04) v) ∧ v.getLsbD 2 = true := by
  rcases step_status h with hst | ⟨_, e, hst⟩ | ⟨e, hn, hst⟩
  · simp [hst, h1] at h0
  · simp [hst, h1] at h0
  · generalize t.status = st at hst h0
    cases hst with
    | kept => simp [h1] at h0
    | reset => exact .inl hn
    | droppedReg | droppedBuf => simp at h0
    | accepted v _ => simp [h1] at h0
    | written v => exact .inr ⟨v, hn, by simpa [h1] using h0⟩

/-- Settles O50: `step_status` says what a step can do to STATUS, and `exec_setStatus` that no command reads it. -/
theorem flagsChangeOnlyByRule : Obligations.FlagsChangeOnlyByRule :=
  ⟨fun _ _ => step_changes_flags, fun _ _ => step_sets_werr, fun _ _ => step_clears_werr,
    fun i s _ st h => (exec_setStatus i s st).trans (by rw [h]; rfl),
    fun i s st _ h => (exec_setStatus i s st).trans (by rw [h]; rfl)⟩

/-! ### Commands (R41, R42) -/

/-- Settles O23: a command that answers a next state completes, and a completion writes STATUS, COUNT, RES and CRC_OUT. -/
theorem commandFrame : Obligations.CommandFrame := by
  intro i s t h
  have hcrc : ¬ IsCrc i → t.crcOut = s.crcOut := exec_crcOut h
  obtain ⟨w, o, rfl, _, _⟩ := exec_next_completes h
  simpa using hcrc

/-- Settles O5: at the engine's turn the step is the engine's, which runs what CMD decodes to. -/
theorem stepRunsDecodedCommand : Obligations.StepRunsDecodedCommand := by
  have hrun : ∀ (s : State) (i : Instr), engineTurn s = true → decode s.cmd = .ok i → step s = exec i s :=
    fun _ _ he hd => (step_engine he).trans (engineStep_of_decode hd)
  refine ⟨hrun, fun s i => hrun _ i ?_ ?_⟩
  · exact engineTurn_placeCommand _ s
  · rw [State.withFetchWord, placeCommand_cmd, tableWord_toNat, decode_encode]

/-! ### CRC_OUT (R29) -/

/-- A step changes CRC_OUT only where a CRC command succeeds, or the block is reset. -/
theorem step_changes_crcOut {s t : State} (h : step s = .next t) (hne : t.crcOut ≠ s.crcOut) :
    nextEvent s = some .reset ∨
      (engineTurn s = true ∧ t.status.err = none ∧ ∃ i, decode s.cmd = .ok i ∧ IsCrc i) := by
  rcases step_next_cases h with ⟨he, h⟩ | ⟨_, _, rfl⟩ | ⟨_, u, rest, ha, rfl⟩
  · obtain ⟨w, o, rfl, hi, _⟩ := engineStep_completes h
    obtain ⟨hv, herr⟩ := (complete_crcOut o s).resolve_left hne
    exact .inr ⟨he, herr, hi hv⟩
  · exact absurd rfl hne
  · have hu := (deliver_crcOut u (setAgenda rest s)).resolve_left hne
    exact .inl (by simp [nextEvent, ha, hu])

/-- Settles O52. -/
theorem crcOutWrittenBySuccessfulCrcOnly : Obligations.CrcOutWrittenBySuccessfulCrcOnly :=
  ⟨fun _ _ => step_changes_crcOut, fun _ _ => rfl, fun _ _ _ _ _ => exec_crc8_crcOut⟩

/-! ### The host while a command is pending (R33, R40) -/

/-- Settles O43: an idle CMD write is `accept`, a busy one the drop, and a busy event but reset changes WERR alone. -/
theorem commandAcceptance : Obligations.CommandAcceptance := by
  refine ⟨fun s v hb => ?_, fun s v hb => ?_, fun s u hb hu => ?_⟩
  · have h := hostWrite_reg s .cmd v
    rwa [writeRegister, hb] at h
  · have h := hostWrite_reg s .cmd v
    rwa [writeRegister, hb] at h
  · obtain ⟨b, hs⟩ := deliver_busy hb hu
    rw [← hs.status, ← hs.command.cmd]
    exact ⟨hb, rfl⟩

/-- Settles O44: a busy event but reset changes nothing of the block but WERR. -/
theorem busyFreezesInputs : Obligations.BusyFreezesInputs := by
  intro s u hb hu
  obtain ⟨b, hs⟩ := deliver_busy hb hu
  rw [← hs.status]
  exact ⟨{ hs.command with }, hs.crcOut.symm, hs.count.symm, hs.res.symm, rfl, rfl⟩

/-! ### Registers (R21, R23, R32, R37) -/

/-- Settles O47: no completion writes a parameter register, and each holds 16 or 17 bits of what was written to it. -/
theorem parameterRegistersKeepValues : Obligations.ParameterRegistersKeepValues := by
  refine ⟨fun i s t r hr h => ?_, fun s v r hr => readReg_writeReg_same hr v s,
    fun s v r r' hr hne => readReg_writeReg_other hr hne v s, fun _ => rfl⟩
  obtain ⟨w, o, rfl, _, _⟩ := exec_next_completes h
  exact readReg_complete hr o s

/-- Settles O48: each register is a field of its implemented bits, but for CMD, which is the whole word. -/
theorem reservedBits : Obligations.ReservedBits :=
  ⟨fun s r => readReg_reserved r s, fun s v _ hr => (writeReg_and_implemented hr v s).symm, fun _ _ => rfl,
    fun _ => decode_reservedBits⟩

/-- Settles O49: the layout of `statusWord`, and a STATUS write as the change of WERR that it is. -/
theorem statusBits : Obligations.StatusBits :=
  ⟨fun s => statusWord_flags s.status, fun _ => readReg_status_err, fun _ => readReg_status_err,
    fun _ => readReg_status_err, fun _ => readReg_status_err, fun _ => readReg_status_err,
    fun _ _ hv => by rw [writeReg, statusWritten, if_pos hv],
    fun _ _ hv => by rw [writeReg, statusWritten, if_neg (Bool.eq_false_iff.mp hv)]⟩

end Sys2Proof.Machine
end

section
/-! SUPPORT. The two memories (spec/20_memory.md): the bytes of a BUF word and the bits of a record (R53, R56, R59), the
input that a command reads (R67), and which steps write BUF and RES (R54, R55). -/

namespace Sys2Proof.Machine

/-! ### A word and its byte lanes (R53, R59) -/

/-- A word is its four byte lanes, lane 0 lowest. -/
theorem ofLanes_lanes (v : Word) : ofLanes (lane v 0) (lane v 1) (lane v 2) (lane v 3) = v := by
  unfold ofLanes lane
  rw [BitVec.extractLsb'_append_extractLsb'_eq_extractLsb' (show 8 * 3 = 8 * 2 + 8 from rfl),
    BitVec.extractLsb'_append_extractLsb'_eq_extractLsb' (show 8 * 2 = 8 * 1 + 8 from rfl),
    BitVec.extractLsb'_append_extractLsb'_eq_extractLsb' (show 8 * 1 = 8 * 0 + 8 from rfl)]
  exact BitVec.extractLsb'_eq_self

/-- A word made of four bytes has them as its lanes. -/
theorem lane_ofLanes (b : Nat → Byte) {j : Nat} (hj : j < 4) : lane (ofLanes (b 0) (b 1) (b 2) (b 3)) j = b j := by
  ext i hi
  simp only [ofLanes, lane]
  interval_cases j <;> grind

/-- A lane of a BUF word is its byte where that is written, and the free word's lane where it is not (R67). -/
theorem lane_bufReadWord (m : List Host.Cell) (k : Nat) (d : Word) {j : Nat} (hj : j < 4) :
    lane (bufReadWord m k d) j = (bufRead m (k + j)).getD (lane d j) :=
  lane_ofLanes (fun j => (bufRead m (k + j)).getD (lane d j)) hj

section
variable {m : List Host.Cell} {k : Nat} {b0 b1 b2 b3 : Byte} (h0 : bufRead m k = some b0)
  (h1 : bufRead m (k + 1) = some b1) (h2 : bufRead m (k + 2) = some b2) (h3 : bufRead m (k + 3) = some b3)
include h0 h1 h2 h3

/-- A word whose four bytes are written reads as them: no lane of the free word is used (R53). -/
theorem bufReadWord_of_bytes (d : Word) : bufReadWord m k d = ofLanes b0 b1 b2 b3 := by
  simp only [bufReadWord, h0, h1, h2, h3, Option.getD_some]

theorem bufWordWritten_of_bytes : bufWordWritten m k = true := by
  simp only [bufWordWritten, h0, h1, h2, h3, Option.isSome_some, Bool.and_self]

end

/-- A written word has no unwritten byte (R67). -/
theorem bufRead_isSome_of_written {m : List Host.Cell} {k : Nat} (h : bufWordWritten m k = true) {j : Nat} (hj : j < 4) :
    (bufRead m (k + j)).isSome = true := by
  simp only [bufWordWritten, Bool.and_eq_true] at h
  obtain ⟨⟨⟨h0, h1⟩, h2⟩, h3⟩ := h
  interval_cases j <;> assumption

/-- Byte `j` of the word at `k` reads as lane `j` of the word last written there (R53). -/
theorem bufRead_bufWriteWord_lane (m : List Host.Cell) (k : Nat) (v : Word) {j : Nat} (hj : j < 4) :
    bufRead (bufWriteWord m k v) (k + j) = some (lane v j) := by
  rw [bufRead_bufWriteWord]
  interval_cases j <;> simp

/-- A word write leaves the bytes outside the word alone (R53). -/
theorem bufRead_bufWriteWord_other (m : List Host.Cell) {k j : Nat} (v : Word) (hj : j < k ∨ k + 4 ≤ j) :
    bufRead (bufWriteWord m k v) j = bufRead m j := by
  rw [bufRead_bufWriteWord, if_neg (by omega), if_neg (by omega), if_neg (by omega), if_neg (by omega)]

/-- A BUF word reads back as it was written (R53). -/
theorem bufReadWord_bufWriteWord (m : List Host.Cell) (k : Nat) (v d : Word) :
    bufReadWord (bufWriteWord m k v) k d = v := by
  have hb : ∀ j, j < 4 → bufRead (bufWriteWord m k v) (k + j) = some (lane v j) := fun _ =>
    bufRead_bufWriteWord_lane m k v
  rw [bufReadWord_of_bytes (k := k) (hb 0 (by decide)) (hb 1 (by decide)) (hb 2 (by decide)) (hb 3 (by decide)),
    ofLanes_lanes]

/-- A word write keeps BUF written in whole words: it writes all of one word and nothing of any other (R53). -/
theorem wholeWords_bufWriteWord {m : List Host.Cell} (h : WholeWords m) (k : Nat) (v : Word) :
    WholeWords (bufWriteWord m (4 * k) v) := by
  intro i
  by_cases hi : i = k
  · subst hi
    have hb : ∀ j, j < 4 → (bufRead (bufWriteWord m (4 * i) v) (4 * i + j)).isSome = true := fun j hj => by
      rw [bufRead_bufWriteWord_lane m _ v hj]; rfl
    have h0 := hb 0 (by decide)
    exact ⟨h0.trans (hb 1 (by decide)).symm, h0.trans (hb 2 (by decide)).symm, h0.trans (hb 3 (by decide)).symm⟩
  · have hb : ∀ j, j < 4 → bufRead (bufWriteWord m (4 * k) v) (4 * i + j) = bufRead m (4 * i + j) := fun j hj =>
      bufRead_bufWriteWord_other m v (by omega)
    have h0 : bufRead (bufWriteWord m (4 * k) v) (4 * i) = bufRead m (4 * i) := hb 0 (by decide)
    rw [h0, hb 1 (by decide), hb 2 (by decide), hb 3 (by decide)]
    exact h i

/-! ### A record (R56) -/

/-- A record is its output XOR above its value, each in 16 bits. -/
theorem record_eq_append {w : Nat} (hw : w ≤ 16) (a x : BitVec w) : record (a, x) = x.setWidth 16 ++ a.setWidth 16 := by
  ext i hi
  simp only [record]
  grind

/-- The low half of a record holds the value. -/
theorem record_low {w off n : Nat} (hw : w ≤ 16) (a x : BitVec w) (h : off + n ≤ 16) :
    (record (a, x)).extractLsb' off n = a.extractLsb' off n := by
  rw [record_eq_append hw, BitVec.extractLsb'_append_eq_of_add_le h, BitVec.extractLsb'_setWidth_of_le h]

/-- The high half of a record holds the output XOR. -/
theorem record_high {w off n : Nat} (hw : w ≤ 16) (a x : BitVec w) (h : off + n ≤ 16) :
    (record (a, x)).extractLsb' (16 + off) n = x.extractLsb' off n := by
  rw [record_eq_append hw, BitVec.extractLsb'_append_eq_of_le (Nat.le_add_right _ _), Nat.add_sub_cancel_left,
    BitVec.extractLsb'_setWidth_of_le h]

/-- Above a byte there are only zeros. -/
theorem extractLsb'_above_byte (b : Byte) : b.extractLsb' 8 8 = 0#8 := by
  ext i hi
  simp

/-! ### The input of a command (R67) -/

/-- An unwritten byte of the buffer is found, at its index or before (R67). -/
theorem exists_bufBytes_error {m : List Host.Cell} {n k : Nat} (hk : k < n) (h : bufRead m k = none) :
    ∃ j, j ≤ k ∧ bufRead m j = none ∧ bufBytes m n = .error j := by
  cases hb : bufBytes m n with
  | error j =>
    obtain ⟨_, hj, hbefore⟩ := (bufBytes_error m n j).1 hb
    refine ⟨j, Nat.le_of_not_lt fun hlt => ?_, hj, rfl⟩
    simpa [h] using hbefore k hlt
  | ok bs =>
    obtain ⟨hlen, hread⟩ := (bufBytes_ok m n bs).1 hb
    have hk' := hread k hk
    rw [h, eq_comm, List.getElem?_eq_none_iff] at hk'
    omega

/-- A command faults exactly when its checks pass and its buffer is not written whole; the first unwritten byte is named
(R67, R172). -/
theorem exec_fault_iff (i : Instr) (s : State) (f : Fault) :
    exec i s = .fault f ↔
      opLen s ≤ s.params.bufCap ∧ RangesValid i s ∧ ∃ k, f = .unwrittenInput k ∧ bufBytes s.buf (opLen s) = .error k := by
  have he := exec_ends i s
  generalize exec i s = o at he
  constructor
  · rintro rfl
    cases he with
    | unwritten k hl hr hk => exact ⟨hl, hr, k, rfl, hk⟩
  · rintro ⟨hl, hr, k, rfl, hk⟩
    cases he with
    | length h => exact absurd hl (Nat.not_le.2 h)
    | range _ h => exact absurd hr h
    | unwritten j _ _ hj =>
      rw [hk] at hj
      cases hj
      rfl
    | computed buf t _ hin _ => cases hk.symm.trans hin.2

/-! ### What each host access answers (R50 to R58) -/

/-- Outside the block's range nothing responds to a read (R50). -/
theorem hostRead_outside {s : State} {addr : Nat} (h : inBlock s.params addr = false) (width : AccessWidth) :
    hostRead width addr s = respond (.noResponse addr) s := by
  simp only [hostRead, h, Bool.false_eq_true, if_false]

/-- Outside the block's range nothing responds to a write (R50). -/
theorem hostWrite_outside {s : State} {addr : Nat} (h : inBlock s.params addr = false) (width : AccessWidth) (v : Word) :
    hostWrite width addr v s = respond (.noResponse addr) s := by
  simp only [hostWrite, h, Bool.false_eq_true, if_false]

/-- A write to a RES slot is a bus error (R55). -/
theorem hostWrite_resSlot {s : State} (hp : s.params.bufCap ≤ 65536) (hr : s.params.resultCap ≤ 65536) {i : Nat}
    (hi : i < s.params.resultCap) (v : Word) :
    hostWrite .w32 (s.params.base + 0x40000 + 4 * i) v s = busError (s.params.base + 0x40000 + 4 * i) s := by
  have hin : inBlock s.params (s.params.base + 0x40000 + 4 * i) = true := by
    rw [inBlock_iff]; omega
  have ht : busTarget s.params .w32 (s.params.base + 0x40000 + 4 * i - s.params.base) = some (.res i) := by
    rw [Nat.add_assoc, Nat.add_sub_cancel_left, busTarget_res hp hi]
  simp only [hostWrite, hin, ht, if_true]

theorem writeRegister_idle {s : State} (hb : s.status.busy = false) (r : RegName) (v : Word) :
    writeRegister r v s = writeReg r v s := by
  simp [writeRegister, hb]

theorem writeRegister_busy {s : State} (hb : s.status.busy = true) {r : RegName} (hr : r ≠ .status) (v : Word) :
    writeRegister r v s = dropWrite s := by
  simp [writeRegister, hb, hr]

/-- A write to STATUS is performed whatever BUSY is (R57). -/
theorem writeRegister_status (v : Word) (s : State) : writeRegister .status v s = writeReg .status v s := by
  simp [writeRegister]

theorem writeBuf_idle {s : State} (hb : s.status.busy = false) (k : Nat) (v : Word) :
    writeBuf k v s = { s with buf := bufWriteWord s.buf k v } := by
  simp [writeBuf, hb]

theorem writeBuf_busy {s : State} (hb : s.status.busy = true) (k : Nat) (v : Word) : writeBuf k v s = dropWrite s := by
  simp [writeBuf, hb]

/-- A register that is no result of a command reads as it is, whatever BUSY is (R58). -/
theorem readRegister_of_ne {r : RegName} (hcrc : r ≠ .crcOut) (hcount : r ≠ .count) (s : State) :
    readRegister r s = respond (.value (readReg r s)) s := by
  simp [readRegister, hcrc, hcount]

theorem readRegister_idle {s : State} (hb : s.status.busy = false) (r : RegName) :
    readRegister r s = respond (.value (readReg r s)) s := by
  simp [readRegister, hb]

/-- CRC_OUT and COUNT are free values while BUSY is 1 (R31, R58). -/
theorem readRegister_busy {s : State} (hb : s.status.busy = true) {r : RegName} (hr : r = .crcOut ∨ r = .count) :
    readRegister r s = readDraw s := by
  rcases hr with rfl | rfl <;> simp [readRegister, hb]

theorem readRes_busy {s : State} (hb : s.status.busy = true) (i : Nat) : readRes i s = readDraw s := by
  simp [readRes, hb]

/-- A slot at or beyond COUNT is a free value (R55). -/
theorem readRes_beyond {s : State} {i : Nat} (hi : s.count.toNat ≤ i) : readRes i s = readDraw s := by
  simp [readRes, Nat.not_lt.2 hi]

/-- A slot below COUNT reads as the record listed there (R55). -/
theorem readRes_record {s : State} (hb : s.status.busy = false) {i : Nat} (hi : i < s.count.toNat) {v : Word}
    (hv : s.res[i]? = some v) : readRes i s = respond (.value v) s := by
  simp [readRes, hb, hi, hv]

/-- A read of a written BUF word answers its bytes (R53). -/
theorem readBuf_written {s : State} {k : Nat} (h : bufWordWritten s.buf k = true) :
    readBuf k s = respond (.value (bufReadWord s.buf k 0)) s :=
  if_pos h

/-- A read of a BUF word that is not written whole takes a free value (R67). -/
theorem readBuf_unwritten {s : State} {k : Nat} (h : bufWordWritten s.buf k = false) :
    readBuf k s = respond (.value (bufReadWord s.buf k (Config.draw s.draws))) (takeDraw s) :=
  if_neg (Bool.eq_false_iff.1 h)

/-! ### Which steps write BUF and RES (R54, R55) -/

/-- A host write leaves BUF alone, or is an idle write to one of its words. -/
theorem hostWrite_buf_cases (width : AccessWidth) (addr : Nat) (v : Word) (s : State) :
    (hostWrite width addr v s).buf = s.buf ∨ ∃ k, 4 * k < s.params.bufCap ∧ s.status.busy = false ∧
      width = .w32 ∧ addr = s.params.base + 0x10000 + 4 * k ∧
      (hostWrite width addr v s).buf = bufWriteWord s.buf (4 * k) v := by
  rcases hostWrite_cases width addr v s with h | h | ⟨_, _, _, h⟩ | ⟨r, _, _, _, h⟩ | ⟨k, hb, hw, ha, hk, h⟩
  · exact .inl (by rw [h, respond_buf])
  · exact .inl (by rw [h, busError_buf])
  · exact .inl (by rw [h, respond_buf, dropWrite_buf])
  · exact .inl (by rw [h, respond_buf, writeReg_buf])
  · exact .inr ⟨k, hk, hb, hw, ha, by rw [h, respond_buf]⟩

/-- A host event leaves BUF alone, or is a reset, or an idle write to one of its words. -/
theorem deliver_buf (u : Turn) (s : State) :
    (deliver u s).buf = s.buf ∨ u.event = .reset ∨ ∃ k v, 4 * k < s.params.bufCap ∧ s.status.busy = false ∧
      u.event = .write .w32 (s.params.base + 0x10000 + 4 * k) v ∧
      (deliver u s).buf = bufWriteWord s.buf (4 * k) v := by
  rcases deliver_cases u s with ⟨_, h⟩ | ⟨he, _⟩ | ⟨_, width, addr, _, h⟩ | ⟨_, width, addr, v, he, h⟩ | ⟨_, _, h⟩
  · exact .inl (by rw [h])
  · exact .inr (.inl he)
  · exact .inl (by rw [h, ← (sameBlock_hostRead width addr s).command.buf])
  · rw [h, he]
    rcases hostWrite_buf_cases width addr v s with hbuf | ⟨k, hk, hb, rfl, rfl, hbuf⟩
    · exact .inl hbuf
    · exact .inr (.inr ⟨k, v, hk, hb, rfl, hbuf⟩)
  · exact .inl (by rw [h, ← (sameBlock_hostPoll u.lead s).command.buf])

/-- The engine's step leaves BUF alone (R54). -/
theorem engineStep_buf {s t : State} (h : engineStep s = .next t) : t.buf = s.buf := by
  obtain ⟨w, o, rfl, _, _⟩ := engineStep_completes h
  exact complete_buf o s

/-- A step changes BUF only where the block is reset, or where an idle host write to its window does (R54). -/
theorem step_changes_buf {s t : State} (h : step s = .next t) (hne : t.buf ≠ s.buf) :
    nextEvent s = some .reset ∨ ∃ k v, 4 * k < s.params.bufCap ∧ s.status.busy = false ∧
      nextEvent s = some (.write .w32 (s.params.base + 0x10000 + 4 * k) v) ∧ t.buf = bufWriteWord s.buf (4 * k) v := by
  rcases step_next_cases h with ⟨_, h⟩ | ⟨_, _, rfl⟩ | ⟨_, u, rest, ha, rfl⟩
  · exact absurd (engineStep_buf h) hne
  · exact absurd rfl hne
  · have hu : nextEvent s = some u.event := by simp only [nextEvent, ha]
    rw [hu]
    rcases (deliver_buf u (setAgenda rest s)).resolve_left hne with he | ⟨k, v, hk, hb, he, hbuf⟩
    · exact .inl (by rw [he])
    · exact .inr ⟨k, v, hk, hb, by rw [he, setAgenda_params], hbuf⟩

/-- Whatever a step does to the block keeps BUF written in whole words. -/
theorem BlockChange.keeps_wholeWords {s b : State} (hc : BlockChange s b) (h : WholeWords s.buf) : WholeWords b.buf := by
  cases hc with
  | unchanged => exact h
  | completed o _ => rwa [complete_buf]
  | reset => exact fun _ => ⟨rfl, rfl, rfl⟩
  | dropped _ => exact h
  | register r v _ => rwa [writeReg_buf]
  | word k v _ _ => exact wholeWords_bufWriteWord h k v

/-- No host write changes RES (R55). -/
@[simp] theorem hostWrite_res (width : AccessWidth) (addr : Nat) (v : Word) (s : State) :
    (hostWrite width addr v s).res = s.res := by
  rcases hostWrite_cases width addr v s with h | h | ⟨_, _, _, h⟩ | ⟨r, _, _, _, h⟩ | ⟨k, _, _, _, _, h⟩ <;> simp [h]

/-- No host event but reset changes RES (R55). -/
theorem deliver_res (u : Turn) (s : State) : (deliver u s).res = s.res ∨ u.event = .reset := by
  rcases deliver_cases u s with ⟨_, h⟩ | ⟨he, _⟩ | ⟨_, width, addr, _, h⟩ | ⟨_, width, addr, v, _, h⟩ | ⟨_, _, h⟩
  · exact .inl (by rw [h])
  · exact .inr he
  · exact .inl (by rw [h, ← (sameBlock_hostRead width addr s).res])
  · exact .inl (by rw [h, hostWrite_res])
  · exact .inl (by rw [h, ← (sameBlock_hostPoll u.lead s).res])

/-- A step changes RES only where the engine moves, or the block is reset (R55). -/
theorem step_changes_res {s t : State} (h : step s = .next t) (hne : t.res ≠ s.res) :
    engineTurn s = true ∨ nextEvent s = some .reset := by
  rcases step_next_cases h with ⟨he, _⟩ | ⟨_, _, rfl⟩ | ⟨_, u, rest, ha, rfl⟩
  · exact .inl he
  · exact absurd rfl hne
  · have hu := (deliver_res u (setAgenda rest s)).resolve_left hne
    exact .inr (by simp only [nextEvent, ha, hu])

/-! ### The host's move (R61, R84) -/

/-- The host's turn delivers the event at the head of the agenda. -/
theorem step_deliver {s : State} (he : engineTurn s = false) {u : Turn} {rest : List Turn} (ha : s.agenda = u :: rest) :
    step s = .next (deliver u (setAgenda rest s)) := by
  rw [step_host he, hostStep, ha]

theorem deliver_read {s : State} (h : s.hostFault = none) (width : AccessWidth) (addr n : Nat) :
    deliver ⟨.read width addr, n⟩ s = hostRead width addr s := by
  simp [deliver, h]

theorem deliver_write {s : State} (h : s.hostFault = none) (width : AccessWidth) (addr : Nat) (v : Word) (n : Nat) :
    deliver ⟨.write width addr v, n⟩ s = hostWrite width addr v s := by
  simp [deliver, h]

theorem deliver_poll {s : State} (h : s.hostFault = none) (n : Nat) : deliver ⟨.poll, n⟩ s = hostPoll n s := by
  simp [deliver, h]

end Sys2Proof.Machine
end

section
/-! SUPPORT. The statements about the memories and host accesses (spec/20_memory.md), each from the lemmas above. -/

namespace Sys2Proof.Machine

/-- Settles O13: of what a step does to the block, only a whole-word write and reset touch BUF. -/
theorem stepKeepsWholeWords : Obligations.StepKeepsWholeWords := by
  intro s t _ h hs
  obtain ⟨l, b, hb, hbt⟩ := step_changes hs
  rw [← hbt.command.buf]
  exact hb.keeps_wholeWords h

/-- Settles O27: `exec_fault_iff`, with the first unwritten byte of the buffer at or before any other. -/
theorem unwrittenInputFaults : Obligations.UnwrittenInputFaults := by
  refine ⟨fun i s k hl hr hk hn => ?_, fun i s f h => ?_⟩
  · obtain ⟨j, hjk, hj, hb⟩ := exists_bufBytes_error hk hn
    exact ⟨j, hjk, hj, (exec_fault_iff i s _).2 ⟨hl, hr, j, rfl, hb⟩⟩
  · obtain ⟨hl, hr, k, rfl, hb⟩ := (exec_fault_iff i s f).1 h
    obtain ⟨hk, hn, _⟩ := (bufBytes_error _ _ _).1 hb
    exact ⟨k, rfl, hk, hn, hl, hr⟩

/-- Settles O45: the register and word writes under the busy rule, with the STATUS write as the change of WERR that it is. -/
theorem writesWhileBusyAreDropped : Obligations.WritesWhileBusyAreDropped := by
  refine ⟨fun s v hp hb => ⟨fun r hr => ?_, fun k hk => ?_⟩, fun s v => ?_,
    fun s v hp hb => ⟨fun r => ?_, fun k hk => ?_⟩⟩
  · rw [hostWrite_reg, writeRegister_busy hb hr]; rfl
  · rw [hostWrite_buf hp.bufCapMax hk, writeBuf_busy hb]; rfl
  · have h := hostWrite_reg s .status v
    rwa [writeRegister_status, writeReg, statusWritten_eq] at h
  · rw [hostWrite_reg, writeRegister_idle hb]
  · rw [hostWrite_buf hp.bufCapMax hk, writeBuf_idle hb]

/-- Settles O46: the register, word and slot reads under the busy rule. -/
theorem readsAnswerByBusyRule : Obligations.ReadsAnswerByBusyRule := by
  refine ⟨fun s hp hb => ⟨fun r hr => ?_, fun i hi => ?_, fun r hcrc hcount => ?_, fun k b0 b1 b2 b3 hk h0 h1 h2 h3 => ?_⟩,
    fun s r hb => ?_, fun s width addr => sameBlock_hostRead width addr s⟩
  · rw [hostRead_reg, readRegister_busy hb hr]
  · rw [hostRead_res hp.bufCapMax hp.resultCapMax hi, readRes_busy hb]
  · rw [hostRead_reg, readRegister_of_ne hcrc hcount]
  · rw [hostRead_buf hp.bufCapMax hk, readBuf_written (bufWordWritten_of_bytes h0 h1 h2 h3),
      bufReadWord_of_bytes h0 h1 h2 h3, ofLanes]
  · rw [hostRead_reg, readRegister_idle hb]

/-- Settles O53: a completion leaves BUF alone, and of the host's events only reset and an idle write to its window do not. -/
theorem engineNeverWritesBuf : Obligations.EngineNeverWritesBuf :=
  ⟨fun _ _ he h => engineStep_buf ((step_engine he).symm.trans h), fun _ _ _ => step_changes_buf⟩

/-- Settles O54. -/
theorem bufWordLittleEndian : Obligations.BufWordLittleEndian := by
  intro m k v d
  have hb : ∀ j, j < 4 → bufRead (bufWriteWord m (4 * k) v) (4 * k + j) = some (v.extractLsb' (8 * j) 8) := fun _ =>
    bufRead_bufWriteWord_lane m (4 * k) v
  exact ⟨hb 0 (by decide), hb 1 (by decide), hb 2 (by decide), hb 3 (by decide),
    fun _ => bufRead_bufWriteWord_other m v, bufReadWord_bufWriteWord m (4 * k) v d⟩

/-- Settles O55: the lanes of the word answered, which takes a free value when one of its bytes is not written. -/
theorem unwrittenLanesReadFree : Obligations.UnwrittenLanesReadFree := by
  intro s k j hp hk hj
  rw [hostRead_buf hp.bufCapMax hk]
  cases hw : bufWordWritten s.buf (4 * k) with
  | true =>
    rw [readBuf_written hw]
    refine ⟨_, rfl, fun b hb => ?_, fun hn => ?_⟩
    · exact (lane_bufReadWord s.buf _ _ hj).trans (by rw [hb, Option.getD_some])
    · exact absurd (bufRead_isSome_of_written hw hj) (by simp [hn])
  | false =>
    rw [readBuf_unwritten hw]
    refine ⟨_, rfl, fun b hb => ?_, fun hn => ⟨?_, rfl⟩⟩
    · exact (lane_bufReadWord s.buf _ _ hj).trans (by rw [hb, Option.getD_some])
    · exact (lane_bufReadWord s.buf _ _ hj).trans (by rw [hn, Option.getD_none, lane])

/-- Settles O56: with `Inv` the slots below COUNT are those listed; a write of one is a bus error. -/
theorem resultSlots : Obligations.ResultSlots := by
  refine ⟨fun s i hinv hb hi => ⟨fun hc => ?_, fun hc => ?_⟩, fun s i v hp hi => ?_, fun _ _ => step_changes_res⟩
  · have hlt : i < s.res.length := hinv.resCount ▸ hc
    have hv : s.res[i]? = some s.res[i] := List.getElem?_eq_getElem hlt
    refine ⟨s.res[i], hv, ?_⟩
    rw [hostRead_res hinv.params.bufCapMax hinv.params.resultCapMax hi, readRes_record hb hc hv]
  · rw [hostRead_res hinv.params.bufCapMax hinv.params.resultCapMax hi, readRes_beyond hc]
  · exact hostWrite_resSlot hp.bufCapMax hp.resultCapMax hi v

/-- Settles O6: the delivery of the event at the head of the agenda, whichever it is. -/
theorem stepDeliversHostEvent : Obligations.StepDeliversHostEvent := by
  intro s he
  refine ⟨fun ha => ?_, fun rest width addr n hf ha => ?_, fun rest width addr v n hf ha => ?_, fun rest n hf ha => ?_,
    fun rest n ha => ?_, fun rest u hf ha hu => ?_⟩
  · rw [step_host he, hostStep, ha]
  · rw [step_deliver he ha, deliver_read (s := setAgenda rest s) hf]
  · rw [step_deliver he ha, deliver_write (s := setAgenda rest s) hf]
  · rw [step_deliver he ha, deliver_poll (s := setAgenda rest s) hf, hostPoll_eq]; rfl
  · rw [step_deliver he ha]; rfl
  · rw [step_deliver he ha, deliver_stopped (s := setAgenda rest s) hf, if_neg hu]

/-- Settles O57: each field lies in the half of the record that holds its value. -/
theorem recordLayout : Obligations.RecordLayout := by
  refine ⟨fun a x => ⟨?_, ?_⟩, fun a x => ⟨?_, ?_, ?_, ?_⟩⟩
  · exact (record_low le_rfl a x le_rfl).trans BitVec.extractLsb'_eq_self
  · exact (record_high le_rfl a x le_rfl).trans BitVec.extractLsb'_eq_self
  · exact (record_low (by decide) a x (by decide)).trans BitVec.extractLsb'_eq_self
  · exact (record_low (by decide) a x le_rfl).trans (extractLsb'_above_byte a)
  · exact (record_high (by decide) a x (by decide)).trans BitVec.extractLsb'_eq_self
  · exact (record_high (by decide) a x le_rfl).trans (extractLsb'_above_byte x)

/-- Settles O59: such an address is not in the block's range, which both accesses ask first. -/
theorem outsideRangeNoResponse : Obligations.OutsideRangeNoResponse := by
  intro s width addr v h
  have hout : inBlock s.params addr = false := by
    rw [← Bool.not_eq_true, inBlock_iff]
    omega
  exact ⟨hostRead_outside hout width, hostWrite_outside hout width v⟩

end Sys2Proof.Machine
end

section
/-! SUPPORT. Command words (spec/30_encoding.md): that a word is read as a command only when it is that command's word
(R77), the mask and value of each row (R78), and the illegal words (R81). -/

namespace Sys2Proof.Machine

/-! ### The fields of a word (R70, R71) -/

/-- A word is its fields, laid out as the pattern of R70. -/
theorem word_eq_layout (c : Word) :
    c = c.extractLsb' 8 24 ++ BitVec.ofBool (c.getLsbD 7) ++ BitVec.ofBool (c.getLsbD 6) ++
      BitVec.ofBool (c.getLsbD 5) ++ BitVec.ofBool (c.getLsbD 4) ++ c.extractLsb' 0 4 := by
  have bit : ∀ n, BitVec.ofBool (c.getLsbD n) = c.extractLsb' n 1 := fun n => by
    ext i hi
    obtain rfl : i = 0 := by omega
    simp
  simp only [bit]
  rw [BitVec.extractLsb'_append_extractLsb'_eq_extractLsb' (show 8 = 7 + 1 from rfl),
    BitVec.extractLsb'_append_extractLsb'_eq_extractLsb' (show 7 = 6 + 1 from rfl),
    BitVec.extractLsb'_append_extractLsb'_eq_extractLsb' (show 6 = 5 + 1 from rfl),
    BitVec.extractLsb'_append_extractLsb'_eq_extractLsb' (show 5 = 4 + 1 from rfl),
    BitVec.extractLsb'_append_extractLsb'_eq_extractLsb' (show 4 = 0 + 4 from rfl)]
  exact BitVec.extractLsb'_eq_self.symm

/-- Words with the same fields are the same word. -/
theorem word_eq_iff_fields (c d : Word) :
    c = d ↔ c.extractLsb' 8 24 = d.extractLsb' 8 24 ∧ c.extractLsb' 0 4 = d.extractLsb' 0 4 ∧
      c.getLsbD 4 = d.getLsbD 4 ∧ c.getLsbD 5 = d.getLsbD 5 ∧ c.getLsbD 6 = d.getLsbD 6 ∧
      c.getLsbD 7 = d.getLsbD 7 := by
  constructor
  · rintro rfl
    exact ⟨rfl, rfl, rfl, rfl, rfl, rfl⟩
  · rintro ⟨hres, hop, h4, h5, h6, h7⟩
    rw [word_eq_layout c, word_eq_layout d, hres, hop, h4, h5, h6, h7]

theorem decodeOp_eq_some_iff (o : BitVec 4) (op : Op) : decodeOp o = some op ↔ o = encodeOp op := by
  revert o
  cases op with
  | crc | search | invert | invrange => decide

theorem decodeOp_eq_none_iff (o : BitVec 4) : decodeOp o = none ↔ o = 0 ∨ 5 ≤ o.toNat := by
  revert o
  decide

/-- The fields that a word is read as are its own (R70). -/
theorem decodeFields_eq_ok_iff (c : Word) (f : Fields) :
    decodeFields c = .ok f ↔ c.extractLsb' 8 24 = 0#24 ∧ c.extractLsb' 0 4 = encodeOp f.op ∧
      c.getLsbD 4 = f.w16 ∧ c.getLsbD 5 = f.ref ∧ c.getLsbD 6 = f.rb ∧ c.getLsbD 7 = f.rf := by
  unfold decodeFields
  by_cases hres : c.extractLsb' 8 24 = 0#24
  · obtain ⟨op, w16, ref, rb, rf⟩ := f
    rw [← decodeOp_eq_some_iff]
    cases hop : decodeOp (c.extractLsb' 0 4) <;> simp [hres]
  · simp [hres]

/-! ### A word is read only as what it encodes (R77, R80) -/

theorem encodeFields_of_decodeFields {c : Word} {f : Fields} (h : decodeFields c = .ok f) : c = encodeFields f := by
  obtain ⟨hres, hop, h4, h5, h6, h7⟩ := (decodeFields_eq_ok_iff c f).1 h
  rw [encodeFields, ← hres, ← hop, ← h4, ← h5, ← h6, ← h7]
  exact word_eq_layout c

/-- Fields with no option that their operation does not take are those of a command (R76, R78). -/
theorem fields_toInstr {f : Fields} (h : f.wf = true) : f.toInstr.fields = f := by
  obtain ⟨op, w16, ref, rb, rf⟩ := f
  cases op with
  | crc | search | invert | invrange => revert w16 ref rb rf; decide

/-- A word reads as a command exactly when its fields are the command's (R77, R78). -/
theorem decode_eq_ok_iff_fields (c : Word) (i : Instr) : decode c = .ok i ↔ decodeFields c = .ok i.fields := by
  have hwf : i.fields.wf = true := instr_wf i
  unfold decode
  cases decodeFields c with
  | error e => simp
  | ok f =>
    constructor
    · intro h
      cases hf : f.wf with
      | false => simp [hf] at h
      | true =>
        obtain rfl : f.toInstr = i := by simpa [hf] using h
        rw [fields_toInstr hf]
    · intro h
      cases h
      simp [hwf, toInstr_fields]

/-- Decoding drops no bit: the one word that reads as a command is the command's own (R77). -/
theorem decode_eq_ok_iff (c : Word) (i : Instr) : decode c = .ok i ↔ c = encode i :=
  ⟨fun h => encodeFields_of_decodeFields ((decode_eq_ok_iff_fields c i).1 h), fun h => h ▸ decode_encode i⟩

/-! ### The rows of the table (R78) -/

/-- The command of the same row with the options that the free bits of a word give (R78). -/
def withFreeBits (c : Word) : Instr → Instr
  | .crc8 _ _ _ => .crc8 (c.getLsbD 5) (c.getLsbD 6) (c.getLsbD 7)
  | .crc16 _ _ _ => .crc16 (c.getLsbD 5) (c.getLsbD 6) (c.getLsbD 7)
  | .search8 _ => .search8 (c.getLsbD 5)
  | .search16 _ => .search16 (c.getLsbD 5)
  | .invert8 => .invert8
  | .invert16 => .invert16
  | .invrange8 => .invrange8
  | .invrange16 => .invrange16

/-- A row's mask and value ask of each field what decoding asks of it (R78). -/
theorem decode_withFreeBits_iff_mask (c : Word) (i : Instr) :
    decode c = .ok (withFreeBits c i) ↔ c &&& i.mask = i.pattern := by
  have hres : ∀ x : BitVec 24, x &&& 0xFFFFFF#24 = x := fun _ => BitVec.and_allOnes
  have hop : ∀ x : BitVec 4, x &&& 0xF#4 = x := fun _ => BitVec.and_allOnes
  rw [decode_eq_ok_iff_fields, decodeFields_eq_ok_iff, word_eq_iff_fields]
  cases i with
  | crc8 | crc16 | search8 | search16 | invert8 | invert16 | invrange8 | invrange16 =>
    simp [withFreeBits, Instr.fields, Instr.mask, Instr.pattern, encodeOp, BitVec.extractLsb'_and, hres, hop]

/-- A CRC command with every choice of its options, in the order in which R78 lists their words. -/
def withEveryOption (make : Bool → Bool → Bool → Instr) : List Instr :=
  [false, true].flatMap fun rf => [false, true].flatMap fun rb => [false, true].map fun ref => make ref rb rf

/-- Every command with every choice of its options, in the order of R78. -/
def allCommands : List Instr :=
  [withEveryOption .crc8, withEveryOption .crc16, [.search8 false, .search8 true], [.search16 false, .search16 true],
    [.invert8, .invert16, .invrange8, .invrange16]].flatten

theorem mem_allCommands (i : Instr) : i ∈ allCommands := by
  cases i with
  | crc8 ref rb rf | crc16 ref rb rf => revert ref rb rf; decide
  | search8 ref | search16 ref => revert ref; decide
  | invert8 | invert16 | invrange8 | invrange16 => decide

/-- The legal words are the words of the commands (R78). -/
theorem exists_decode_eq_ok_iff (c : Word) : (∃ i, decode c = .ok i) ↔ c ∈ allCommands.map encode := by
  simp only [decode_eq_ok_iff, List.mem_map, mem_allCommands, true_and, @eq_comm _ c]

/-- The 24 legal words, as R78 lists them. -/
theorem map_encode_allCommands :
    allCommands.map encode =
      [0x01#32, 0x21#32, 0x41#32, 0x61#32, 0x81#32, 0xA1#32, 0xC1#32, 0xE1#32,
        0x11#32, 0x31#32, 0x51#32, 0x71#32, 0x91#32, 0xB1#32, 0xD1#32, 0xF1#32,
        0x02#32, 0x22#32, 0x12#32, 0x32#32, 0x03#32, 0x13#32, 0x04#32, 0x14#32] := by
  decide

/-! ### The illegal words (R81) -/

/-- Why the decoder refuses a word: a reserved bit, a reserved OP, or an option that the operation does not take. -/
theorem exists_decode_eq_error_iff (c : Word) :
    (∃ e, decode c = .error e) ↔ c.extractLsb' 8 24 ≠ 0#24 ∨ decodeOp (c.extractLsb' 0 4) = none ∨
      ∃ op, decodeOp (c.extractLsb' 0 4) = some op ∧
        Fields.wf ⟨op, c.getLsbD 4, c.getLsbD 5, c.getLsbD 6, c.getLsbD 7⟩ = false := by
  by_cases hres : c.extractLsb' 8 24 = 0#24
  · cases hop : decodeOp (c.extractLsb' 0 4) with
    | none => simp [decode, decodeFields, hres, hop]
    | some op =>
      have hf : decodeFields c = .ok ⟨op, c.getLsbD 4, c.getLsbD 5, c.getLsbD 6, c.getLsbD 7⟩ :=
        (decodeFields_eq_ok_iff _ _).2 ⟨hres, (decodeOp_eq_some_iff _ _).1 hop, rfl, rfl, rfl, rfl⟩
      simp only [decode, hf]
      cases hwf : Fields.wf ⟨op, c.getLsbD 4, c.getLsbD 5, c.getLsbD 6, c.getLsbD 7⟩ with
      | false => simpa [hres] using hwf
      | true => simpa [hres] using hwf
  · exact ⟨fun _ => .inl hres, fun _ => ⟨_, decode_reservedBits hres⟩⟩

/-! The masks with which R81 is written down, field by field. -/

theorem and_opMask (c : Word) : c &&& 0xF#32 = (c.extractLsb' 0 4).setWidth 32 := by
  rw [← BitVec.setWidth_eq_extractLsb' (by decide), setWidth_setWidth_eq_and]
  rfl

theorem toNat_and_opMask (c : Word) : (c &&& 0xF#32).toNat = (c.extractLsb' 0 4).toNat := by
  rw [and_opMask, BitVec.toNat_setWidth_of_le (by decide)]

theorem and_opMask_eq_iff (c : Word) (o : BitVec 4) : c &&& 0xF#32 = o.setWidth 32 ↔ c.extractLsb' 0 4 = o := by
  rw [and_opMask]
  exact ⟨fun h => by simpa using congrArg (BitVec.setWidth 4) h, fun h => h ▸ rfl⟩

theorem and_reservedMask_eq_zero_iff (c : Word) : c &&& 0xFFFFFF00#32 = 0#32 ↔ c.extractLsb' 8 24 = 0#24 := by
  have hres : ∀ x : BitVec 24, x &&& 0xFFFFFF#24 = x := fun _ => BitVec.and_allOnes
  rw [word_eq_iff_fields]
  simp [BitVec.extractLsb'_and, hres]

theorem and_transformMask_eq_zero_iff (c : Word) :
    c &&& 0xC0#32 = 0#32 ↔ c.getLsbD 6 = false ∧ c.getLsbD 7 = false := by
  rw [word_eq_iff_fields]
  simp [BitVec.extractLsb'_and]

theorem and_optionMask_eq_zero_iff (c : Word) :
    c &&& 0xE0#32 = 0#32 ↔ c.getLsbD 5 = false ∧ c.getLsbD 6 = false ∧ c.getLsbD 7 = false := by
  rw [word_eq_iff_fields]
  simp [BitVec.extractLsb'_and]

/-- The words that R81 lists are those that the decoder refuses. -/
theorem exists_decode_eq_error_iff_masks (c : Word) :
    (∃ e, decode c = .error e) ↔
      (c &&& 0xF#32 = 0#32 ∨ 5 ≤ (c &&& 0xF#32).toNat ∨ c &&& 0xFFFFFF00#32 ≠ 0#32 ∨
        (c &&& 0xF#32 = 2#32 ∧ c &&& 0xC0#32 ≠ 0#32) ∨
        ((c &&& 0xF#32 = 3#32 ∨ c &&& 0xF#32 = 4#32) ∧ c &&& 0xE0#32 ≠ 0#32)) := by
  rw [exists_decode_eq_error_iff, ne_eq (c &&& 0xFFFFFF00#32), and_reservedMask_eq_zero_iff, ne_eq (c &&& 0xC0#32),
    and_transformMask_eq_zero_iff, ne_eq (c &&& 0xE0#32), and_optionMask_eq_zero_iff]
  cases hop : decodeOp (c.extractLsb' 0 4) with
  | none =>
    have ho := (decodeOp_eq_none_iff _).1 hop
    rw [← toNat_and_opMask, ← and_opMask_eq_iff] at ho
    exact iff_of_true (.inr (.inl rfl)) (ho.imp_right .inl)
  | some op =>
    rw [and_opMask, (decodeOp_eq_some_iff _ _).1 hop]
    cases op with
    | crc | search | invert | invrange =>
      simp [encodeOp, Fields.wf, Fields.refOk, Fields.rbOk, Fields.rfOk]

/-- At the engine's turn an illegal word completes with ILLEGAL_COMMAND (R173). -/
theorem step_illegal {s : State} (ht : engineTurn s = true) {e : DecodeError} (he : decode s.cmd = .error e) :
    step s = .next (afterError .illegalCommand s) := by
  rw [step_engine ht, engineStep, he]
  rfl

end Sys2Proof.Machine
end

section
/-! SUPPORT. What `wrbuf` (R84) leaves in the input buffer: its bytes, and LEN their number. -/

namespace Sys2Proof.Machine

/-- `wr NAME, v` on an idle block performs the register write (R83). -/
theorem deliver_wrReg {s : State} (hb : s.status.busy = false) (hf : s.hostFault = none) (r : RegName) (v : Word)
    (n : Nat) :
    deliver ⟨wrReg s.params.base r v, n⟩ s = respond .written (writeReg r v s) := by
  rw [wrReg, deliver_write hf, hostWrite_reg, writeRegister_idle hb]

/-- `wr BUF+4k, v` on an idle block performs the word write (R83). -/
theorem deliver_wrBufWord {s : State} (hp : s.params.bufCap ≤ 65536) (hb : s.status.busy = false)
    (hf : s.hostFault = none) {k : Nat} (hk : 4 * k < s.params.bufCap) (v : Word) (n : Nat) :
    deliver ⟨wrBufWord s.params.base (4 * k) v, n⟩ s =
      respond .written { s with buf := bufWriteWord s.buf (4 * k) v } := by
  rw [wrBufWord, bufWindow, deliver_write hf, hostWrite_buf hp hk, writeBuf_idle hb]

/-- In `t` the bytes `bs` stand in BUF from index `o` on and those below are as in `s`, whose host can go on. -/
structure BytesPlaced (o : Nat) (bs : List Byte) (s t : State) : Prop where
  params : t.params = s.params
  idle : t.status.busy = false
  running : t.hostFault = none
  below : ∀ j, j < o → bufRead t.buf j = bufRead s.buf j
  bytes : ∀ i, i < bs.length → bufRead t.buf (o + i) = bs[i]?

theorem BytesPlaced.nil {s : State} (hb : s.status.busy = false) (hf : s.hostFault = none) (o : Nat) :
    BytesPlaced o [] s s :=
  ⟨rfl, hb, hf, fun _ _ => rfl, nofun⟩

/-- The word of up to four bytes, a missing one being 0, has them as its lanes (R84). -/
theorem lane_packed (b : Byte) (bs : List Byte) {i : Nat} (hi : i < 4) :
    lane (ofLanes b (bs.getD 0 0) (bs.getD 1 0) (bs.getD 2 0)) i = (b :: bs).getD i 0 :=
  lane_ofLanes (fun j => (b :: bs).getD j 0) hi

/-- A word write and then the rest of the bytes, four further on, place all the bytes. -/
theorem BytesPlaced.cons {s t : State} {k : Nat} {b : Byte} {bs : List Byte}
    (h : BytesPlaced (4 * (k + 1)) (bs.drop 3) (respond .written { s with
      buf := bufWriteWord s.buf (4 * k) (ofLanes b (bs.getD 0 0) (bs.getD 1 0) (bs.getD 2 0)) }) t) :
    BytesPlaced (4 * k) (b :: bs) s t where
  params := h.params
  idle := h.idle
  running := h.running
  below j hj := (h.below j (by omega)).trans (bufRead_bufWriteWord_other _ _ (.inl hj))
  bytes i hi := by
    by_cases h4 : i < 4
    · rw [h.below _ (by omega), respond_buf, bufRead_bufWriteWord_lane _ _ _ h4, lane_packed b bs h4,
        List.getD_eq_getElem?_getD, List.getElem?_eq_getElem hi, Option.getD_some]
    · obtain ⟨i, rfl⟩ := Nat.exists_eq_add_of_le' (Nat.not_lt.1 h4)
      have hbyte := h.bytes i (by simp at hi ⊢; omega)
      rw [List.getElem?_drop, Nat.add_comm 3] at hbyte
      rw [List.getElem?_cons_succ, ← hbyte]
      congr 1
      omega

/-- The word writes of `wrbuf` place its bytes, by induction on the words. -/
theorem bytesPlaced_wrbufWords {p : Params} (hp : p.Valid) (n : Nat) :
    ∀ {s : State} {k : Nat} {bs : List Byte}, s.params = p → s.status.busy = false → s.hostFault = none →
      bs.length ≤ n → 4 * k + bs.length ≤ p.bufCap →
      BytesPlaced (4 * k) bs s (deliverAll (wrbufWords p.base n (4 * k) bs) s) := by
  induction n with
  | zero =>
    intro s k bs _ hb hf hn _
    obtain rfl := List.eq_nil_of_length_eq_zero (Nat.le_zero.1 hn)
    exact .nil hb hf _
  | succ n ih =>
    rintro s k (_ | ⟨b, bs⟩) rfl hb hf hn hcap
    · exact .nil hb hf _
    · have h4 := hp.bufCapAligned
      simp only [List.length_cons] at hn hcap
      rw [wrbufWords, deliverAll, List.foldl_cons, deliver_wrBufWord hp.bufCapMax hb hf (by omega)]
      exact BytesPlaced.cons (ih rfl hb hf (by simp; omega) (by simp; omega))

theorem deliverAll_concat (es : List HostEvent) (e : HostEvent) (s : State) :
    deliverAll (es ++ [e]) s = deliver ⟨e, 0⟩ (deliverAll es s) := by
  simp [deliverAll]

/-- LEN has room for every length of a buffer (R28). -/
theorem opLen_writeReg_len {n : Nat} (hn : n < 2 ^ 17) (s : State) :
    opLen (writeReg .len (BitVec.ofNat 32 n) s) = n := by
  simp only [opLen, writeReg, BitVec.toNat_setWidth, BitVec.toNat_ofNat]
  omega

end Sys2Proof.Machine
end

section
/-! SUPPORT. The statements about the encoding (spec/30_encoding.md), each from the lemmas above. -/

namespace Sys2Proof.Machine

/-- Settles O1: the word of a command reads back as it (`decode_encode`), and decoding drops no bit of a word. -/
theorem decodeEncodeAgree : Obligations.DecodeEncodeAgree :=
  ⟨instr_wf, decode_eq_ok_iff⟩

/-- Settles O2, row by row; the legal words are the words of the commands. -/
theorem masksSelectCommands : Obligations.MasksSelectCommands := fun c =>
  have row := decode_withFreeBits_iff_mask c
  ⟨row (.crc8 false false false), row (.crc16 false false false), row (.search8 false), row (.search16 false),
    row .invert8, row .invert16, row .invrange8, row .invrange16,
    map_encode_allCommands ▸ exists_decode_eq_ok_iff c⟩

/-- Settles O3: the masks of R81, acceptance of any value (R40), and the engine step of an illegal word. -/
theorem illegalWordsComplete : Obligations.IllegalWordsComplete :=
  ⟨exists_decode_eq_error_iff_masks, fun _ _ _ => ⟨rfl, rfl⟩, fun _ ht ⟨_, he⟩ => step_illegal ht he⟩

/-- Settles O60: the word writes place the bytes, and LEN is written last. -/
theorem wrbufGivesInput : Obligations.WrbufGivesInput := by
  intro s bs hp hb hf hlen
  have hcap := hp.bufCapMax
  have h : BytesPlaced 0 bs s (deliverAll (wrbufWords s.params.base bs.length 0 bs) s) :=
    bytesPlaced_wrbufWords (k := 0) hp _ rfl hb hf le_rfl (by omega)
  rw [wrbuf, deliverAll_concat]
  generalize deliverAll _ s = t at h ⊢
  have hopLen : opLen (writeReg .len (BitVec.ofNat 32 bs.length) t) = bs.length := opLen_writeReg_len (by omega) t
  rw [← h.params] at hlen ⊢
  rw [deliver_wrReg h.idle h.running]
  refine ⟨hopLen.trans_le hlen, (bufBytes_ok _ _ _).2 ⟨hopLen.symm, fun i hi => ?_⟩⟩
  rw [respond_buf, writeReg_buf, ← h.bytes i (hi.trans_eq hopLen), Nat.zero_add]

/-- Settles O4: the decoder evaluates on each word. -/
theorem wordsReadAsWritten : Obligations.WordsReadAsWritten :=
  ⟨rfl, rfl, rfl, rfl, rfl, rfl, rfl, rfl, rfl, rfl, rfl⟩

end Sys2Proof.Machine
end

section
/-! SUPPORT. The shift recurrence (R100): linear in the register; a plain shift where there is no feedback; what the polynomial's
bit 0 decides. -/

namespace Sys2Proof.Machine

variable {w : Nat}

/-! ### One shift -/

/-- A shift as one XOR: the polynomial comes in exactly where the top bit is 1 (R100). -/
theorem shiftStep_eq (r p : BitVec w) : shiftStep r p = r <<< 1 ^^^ (if r.msb then p else 0#w) := by
  unfold shiftStep
  split <;> simp

/-- Two polynomials, each taken in where its own condition holds, cancel where both hold. -/
theorem ite_xor_ite (a b : Bool) (p : BitVec w) :
    (if a then p else 0#w) ^^^ (if b then p else 0#w) = if (a ^^ b) then p else 0#w := by
  cases a <;> cases b <;> simp

/-- A shift is linear in the register. -/
theorem shiftStep_xor (r r' p : BitVec w) : shiftStep (r ^^^ r') p = shiftStep r p ^^^ shiftStep r' p := by
  simp only [shiftStep_eq, BitVec.msb_xor, BitVec.shiftLeft_xor_distrib, ← ite_xor_ite]
  ac_rfl

theorem shiftStep_of_msb_false {r : BitVec w} (h : r.msb = false) (p : BitVec w) : shiftStep r p = r <<< 1 := by
  simp [shiftStep, h]

/-- A shift moves a 0 in, so bit 0 afterwards tells whether an odd polynomial was taken in. -/
theorem getLsbD_zero_shiftStep (r p : BitVec w) : (shiftStep r p).getLsbD 0 = (r.msb && p.getLsbD 0) := by
  unfold shiftStep
  split <;> simp_all

/-- With an odd polynomial a shift loses nothing: bit 0 of the result gives the top bit back (R110). -/
theorem shiftStep_injective {p : BitVec w} (hp : p.getLsbD 0 = true) : Function.Injective (shiftStep · p) := by
  intro r r' h
  have hmsb : r.msb = r'.msb := by simpa [getLsbD_zero_shiftStep, hp] using congrArg (·.getLsbD 0) h
  have hshift : r <<< 1 = r' <<< 1 := by simpa [shiftStep_eq, hmsb] using h
  refine BitVec.eq_of_getLsbD_eq fun i hi => ?_
  by_cases hlast : i = w - 1
  · simpa [hlast, BitVec.msb_eq_getLsbD_last] using hmsb
  · simpa [hi, show i + 1 < w by omega] using congrArg (·.getLsbD (i + 1)) hshift

/-! ### Many shifts -/

/-- The last shift comes out first as well. -/
theorem shiftSteps_succ_last (n : Nat) (r p : BitVec w) : shiftSteps (n + 1) r p = shiftStep (shiftSteps n r p) p := by
  induction n generalizing r with
  | zero => rfl
  | succ n ih => exact ih (shiftStep r p)

theorem shiftSteps_xor (n : Nat) (r r' p : BitVec w) :
    shiftSteps n (r ^^^ r') p = shiftSteps n r p ^^^ shiftSteps n r' p := by
  induction n generalizing r r' with
  | zero => rfl
  | succ n ih => rw [shiftSteps, shiftStep_xor, ih]; rfl

theorem shiftSteps_injective {p : BitVec w} (hp : p.getLsbD 0 = true) (n : Nat) :
    Function.Injective (shiftSteps n · p) := by
  induction n with
  | zero => exact Function.injective_id
  | succ n ih => exact ih.comp (shiftStep_injective hp)

/-- While the leading bits are 0 there is no feedback: the register only moves up. -/
theorem shiftSteps_of_leading_zeros {n : Nat} {r : BitVec w} (h : ∀ i < n, r.getMsbD i = false) (p : BitVec w) :
    shiftSteps n r p = r <<< n := by
  induction n generalizing r with
  | zero => simp [shiftSteps]
  | succ n ih =>
    have hmsb : r.msb = false := h 0 n.succ_pos
    have hrest : ∀ i < n, (r <<< 1).getMsbD i = false := fun i hi => by simp [h (i + 1) (by omega)]
    rw [shiftSteps, shiftStep_of_msb_false hmsb, ih hrest, ← BitVec.shiftLeft_add, Nat.add_comm]

/-- The polynomial 0 gives no feedback. -/
theorem shiftSteps_zero_poly (n : Nat) (r : BitVec w) : shiftSteps n r 0#w = r <<< n := by
  induction n with
  | zero => simp [shiftSteps]
  | succ n ih => simp [shiftSteps_succ_last, ih, shiftStep_eq, BitVec.shiftLeft_add]

end Sys2Proof.Machine
end

section
/-! SUPPORT. The byte step (R101) and the register after a buffer (R102): the table form (R104), the per-bit form (R106), and
both as functions of the register. The widths 8 and 16 count only in that a byte fits the register. -/

namespace Sys2Proof.Machine

variable {w : Nat}

/-! ### A byte in the high byte of a register -/

theorem eight_le_of_width (hw : w = 8 ∨ w = 16) : 8 ≤ w := by omega

theorem getLsbD_highByte (b : Byte) (i : Nat) :
    (highByte w b).getLsbD i = (decide (i < w) && !decide (i < w - 8) && b.getLsbD (i - (w - 8))) := by
  simp only [highByte, BitVec.getLsbD_shiftLeft, BitVec.getLsbD_setWidth]
  grind

@[simp] theorem highByte_zero : highByte w 0#8 = 0#w := by simp [highByte]

theorem highByte_xor (b b' : Byte) : highByte w (b ^^^ b') = highByte w b ^^^ highByte w b' := by
  simp [highByte, BitVec.setWidth_xor, BitVec.shiftLeft_xor_distrib]

theorem msb_highByte (hw : 8 ≤ w) (b : Byte) : (highByte w b).msb = b.msb := by
  have h7 : w - 1 - (w - 8) = 7 := by omega
  have hin : w - 1 < w ∧ ¬ w - 1 < w - 8 := by omega
  simp only [BitVec.msb_eq_getLsbD_last, getLsbD_highByte, h7, hin, decide_true, decide_false, Bool.not_false, Bool.true_and]

theorem highByte_shiftLeft_one (hw : 8 ≤ w) (b : Byte) : highByte w b <<< 1 = highByte w (b <<< 1) := by
  refine BitVec.eq_of_getLsbD_eq fun i hi => ?_
  simp only [BitVec.getLsbD_shiftLeft, getLsbD_highByte]
  grind

theorem highByte_shiftLeft_eight (hw : 8 ≤ w) (b : Byte) : highByte w b <<< 8 = 0#w := by
  rw [highByte, ← BitVec.shiftLeft_add, BitVec.shiftLeft_eq_zero (by omega)]

/-- Taking its high byte out of a register leaves eight leading zeros. -/
theorem getMsbD_xor_highByte_topByte (hw : 8 ≤ w) (r : BitVec w) {i : Nat} (hi : i < 8) :
    (r ^^^ highByte w (topByte r)).getMsbD i = false := by
  have hbit : w - 8 + (w - 1 - i - (w - 8)) = w - 1 - i := by omega
  have hin : w - 1 - i < w ∧ ¬ w - 1 - i < w - 8 ∧ w - 1 - i - (w - 8) < 8 := by omega
  simp only [BitVec.getMsbD_eq_getLsbD, BitVec.getLsbD_xor, getLsbD_highByte, topByte, BitVec.getLsbD_extractLsb', hin, hbit,
    decide_true, decide_false, Bool.not_false, Bool.true_and, Bool.xor_self, Bool.and_false]

/-! ### The table-driven form (R103 to R105) -/

/-- The table form is the bit-serial one (R105): the low part of the register shifts up without feedback, and what the high
byte and the data byte become is the table's entry, since the recurrence is linear. -/
theorem fwdByteTab_eq_fwdByte (hw : 8 ≤ w) (r : BitVec w) (b : Byte) (p : BitVec w) : fwdByteTab r b p = fwdByte r b p := by
  have hlow : shiftSteps 8 (r ^^^ highByte w (topByte r)) p = r <<< 8 := by
    rw [shiftSteps_of_leading_zeros fun i hi => getMsbD_xor_highByte_topByte hw r hi, BitVec.shiftLeft_xor_distrib,
      highByte_shiftLeft_eight hw, BitVec.xor_zero]
  calc fwdByteTab r b p
      = shiftSteps 8 (r ^^^ highByte w (topByte r)) p ^^^ shiftSteps 8 (highByte w (topByte r ^^^ b)) p := by
        rw [hlow]; rfl
    _ = shiftSteps 8 (r ^^^ (highByte w (topByte r) ^^^ highByte w (topByte r)) ^^^ highByte w b) p := by
        rw [← shiftSteps_xor, highByte_xor]; ac_rfl
    _ = fwdByte r b p := by rw [BitVec.xor_self, BitVec.xor_zero]; rfl

/-- An entry of the table is the byte step from register 0 (R103). -/
theorem tableEntry_eq_fwdByte (p : BitVec w) (i : Byte) : tableEntry p i = fwdByte 0#w i p := by
  simp [tableEntry, fwdByte]

theorem coreTab_eq_coreW (hw : 8 ≤ w) (buf : List Byte) (p s : BitVec w) : coreTab buf p s = coreW buf p s := by
  simp only [coreTab, coreW, fwdByteTab_eq_fwdByte hw]

/-- REF has no effect: the CRC by either form is the bit-serial one (R73, R105). -/
theorem crcBy_eq_crc (hw : 8 ≤ w) (ref : Bool) (buf : List Byte) (p s x : BitVec w) :
    crcBy ref buf p s x = crc buf p s x := by
  cases ref <;> simp [crcBy, crc, coreTab_eq_coreW hw]

theorem crcCommand_ref (hw : 8 ≤ w) (ref ref' rb rf : Bool) (s : State) :
    crcCommand w ref rb rf s = crcCommand w ref' rb rf s := by
  simp only [crcCommand, crcBy_eq_crc hw]

theorem searchCommand_ref (hw : 8 ≤ w) (ref ref' : Bool) (s : State) :
    searchCommand w ref s = searchCommand w ref' s := by
  simp only [searchCommand, search, crcBy_eq_crc hw]

/-! ### One data bit at a time (R106) -/

/-- A bit step as one XOR: the polynomial comes in exactly where the top bit differs from the data bit (R106). -/
theorem fbit_eq (r : BitVec w) (d : Bool) (p : BitVec w) : fbit r d p = r <<< 1 ^^^ (if (r.msb ^^ d) then p else 0#w) := by
  unfold fbit
  split <;> simp

/-- One shift takes in the leading bit of a data byte, the rest of which moves up to wait in the high byte. -/
theorem shiftStep_xor_highByte (hw : 8 ≤ w) (r : BitVec w) (b : Byte) (p : BitVec w) :
    shiftStep (r ^^^ highByte w b) p = fbit r b.msb p ^^^ highByte w (b <<< 1) := by
  rw [shiftStep_eq, fbit_eq, BitVec.msb_xor, msb_highByte hw, BitVec.shiftLeft_xor_distrib, highByte_shiftLeft_one hw]
  ac_rfl

/-- The bits of a byte come to its top one by one, and after eight shifts none is left. -/
theorem msb_shiftLeft_byte (b : Byte) {k : Nat} (hk : k < 8) : (b <<< k).msb = b.getLsbD (7 - k) := by
  simp [BitVec.msb_shiftLeft, BitVec.getMsbD_eq_getLsbD, hk]

/-- A byte step is the bit steps of its bits, the leading bit first (R12, R106). -/
theorem fwdByte_eq_fbits (hw : 8 ≤ w) (r : BitVec w) (b : Byte) (p : BitVec w) :
    fwdByte r b p = (bitsMsbFirst b).foldl (fun r d => fbit r d p) r := by
  have hall : b <<< 8 = 0#8 := BitVec.shiftLeft_eq_zero le_rfl
  simp only [fwdByte, shiftSteps, shiftStep_xor_highByte hw, ← BitVec.shiftLeft_add, Nat.reduceAdd, hall, highByte_zero,
    BitVec.xor_zero, msb_shiftLeft_byte, Nat.reduceLT, Nat.reduceSub, BitVec.msb_eq_getLsbD_last b]
  rfl

/-! ### The byte step as a function of the register (R110) -/

theorem fwdByte_xor (r r' : BitVec w) (b : Byte) (p : BitVec w) :
    fwdByte (r ^^^ r') b p = fwdByte r b p ^^^ fwdByte r' 0#8 p := by
  simp only [fwdByte, highByte_zero, BitVec.xor_zero, ← shiftSteps_xor]
  ac_rfl

theorem fwdByte_injective {p : BitVec w} (hp : p.getLsbD 0 = true) (b : Byte) : Function.Injective (fwdByte · b p) :=
  (shiftSteps_injective hp 8).comp fun _ _ h => (BitVec.xor_left_inj _).1 h

/-- An even polynomial never sets bit 0. -/
theorem getLsbD_zero_fwdByte {p : BitVec w} (hp : p.getLsbD 0 = false) (r : BitVec w) (b : Byte) :
    (fwdByte r b p).getLsbD 0 = false := by
  rw [fwdByte, shiftSteps_succ_last, getLsbD_zero_shiftStep, hp, Bool.and_false]

/-- With the polynomial 0 the high byte, and the data with it, is shifted out (R111, R112). -/
theorem fwdByte_zero_poly (hw : 8 ≤ w) (r : BitVec w) (b : Byte) : fwdByte r b 0#w = r <<< 8 := by
  rw [fwdByte, shiftSteps_zero_poly, BitVec.shiftLeft_xor_distrib, highByte_shiftLeft_eight hw, BitVec.xor_zero]

/-! ### The register after a buffer (R102, R110) -/

@[simp] theorem coreW_nil (p s : BitVec w) : coreW [] p s = s := rfl

@[simp] theorem coreW_cons (b : Byte) (buf : List Byte) (p s : BitVec w) :
    coreW (b :: buf) p s = coreW buf p (fwdByte s b p) := rfl

theorem coreW_concat (buf : List Byte) (b : Byte) (p s : BitVec w) :
    coreW (buf ++ [b]) p s = fwdByte (coreW buf p s) b p := by
  simp [coreW]

/-- The register is affine in the seed, its linear part that of as many zero bytes. -/
theorem coreW_xor (buf : List Byte) (p s s' : BitVec w) :
    coreW buf p (s ^^^ s') = coreW buf p s ^^^ coreW (List.replicate buf.length 0#8) p s' := by
  induction buf generalizing s s' with
  | nil => rfl
  | cons b buf ih => simp only [coreW_cons, List.length_cons, List.replicate_succ, fwdByte_xor, ih]

/-- Zero bytes act linearly: they are their own zero bytes. -/
theorem coreW_zeros_xor (n : Nat) (p s s' : BitVec w) :
    coreW (List.replicate n 0#8) p (s ^^^ s') = coreW (List.replicate n 0#8) p s ^^^ coreW (List.replicate n 0#8) p s' := by
  simpa using coreW_xor (List.replicate n 0#8) p s s'

theorem coreW_injective {p : BitVec w} (hp : p.getLsbD 0 = true) (buf : List Byte) :
    Function.Injective fun s => coreW buf p s := by
  induction buf with
  | nil => exact Function.injective_id
  | cons b buf ih => exact ih.comp (fwdByte_injective hp b)

/-- After a non-empty buffer an even polynomial leaves bit 0 at 0, so the register never is 1. -/
theorem coreW_not_surjective (hw : 8 ≤ w) {p : BitVec w} (hp : p.getLsbD 0 = false) {buf : List Byte} (hbuf : buf ≠ []) :
    ¬ Function.Surjective fun s => coreW buf p s := by
  intro hsurj
  obtain ⟨s, hs⟩ := hsurj 1#w
  obtain ⟨init, b, rfl⟩ := (List.eq_nil_or_concat' buf).resolve_left hbuf
  have hzero : (coreW (init ++ [b]) p s).getLsbD 0 = false := coreW_concat init b p s ▸ getLsbD_zero_fwdByte hp _ b
  have hone : (1#w).getLsbD 0 = true := by simp [show 0 < w by omega]
  exact absurd (hs ▸ hone) (by simp [hzero])

theorem coreW_zero_poly (hw : 8 ≤ w) (buf : List Byte) (s : BitVec w) : coreW buf 0#w s = s <<< (8 * buf.length) := by
  induction buf generalizing s with
  | nil => simp
  | cons b buf ih =>
    rw [coreW_cons, fwdByte_zero_poly hw, ih, ← BitVec.shiftLeft_add, List.length_cons, Nat.mul_succ, Nat.add_comm]

/-- With the polynomial 0 a buffer that fills the register shifts the seed out (R111, R112). -/
theorem crc_zero_poly (hw : 8 ≤ w) {buf : List Byte} (hbuf : w ≤ 8 * buf.length) (s x : BitVec w) :
    crc buf 0#w s x = x := by
  rw [crc, coreW_zero_poly hw, BitVec.shiftLeft_eq_zero hbuf, BitVec.zero_xor]

end Sys2Proof.Machine
end

section
/-! SUPPORT. The input transform (R107): reflection bit by bit, and the two options as operations on the list. -/

namespace Sys2Proof.Machine

/-- Bit `i` of a reflected byte is bit `7 - i` of the byte (R107). -/
theorem getLsbD_reflect8 (b : Byte) {i : Nat} (hi : i < 8) : (reflect8 b).getLsbD i = b.getLsbD (7 - i) := by
  unfold reflect8
  simp only [BitVec.getLsbD_append, BitVec.getLsbD_ofBool]
  interval_cases i <;> rfl

@[simp] theorem reflect8_reflect8 (b : Byte) : reflect8 (reflect8 b) = b := by
  refine BitVec.eq_of_getLsbD_eq fun i hi => ?_
  rw [getLsbD_reflect8 _ hi, getLsbD_reflect8 _ (by omega), show 7 - (7 - i) = i by omega]

@[simp] theorem xform_false_false (buf : List Byte) : xform buf false false = buf := rfl

@[simp] theorem xform_false_true (buf : List Byte) : xform buf false true = buf.map reflect8 := rfl

/-- RB reverses the whole list, whether the bytes are reflected or not. -/
@[simp] theorem xform_true (buf : List Byte) (rf : Bool) : xform buf true rf = (xform buf false rf).reverse := by
  cases rf <;> simp [xform]

@[simp] theorem length_xform (buf : List Byte) (rb rf : Bool) : (xform buf rb rf).length = buf.length := by
  cases rb <;> cases rf <;> simp

@[simp] theorem xform_nil (rb rf : Bool) : xform [] rb rf = [] := by
  rw [← List.length_eq_zero_iff, length_xform, List.length_nil]

end Sys2Proof.Machine
end

section
/-! SUPPORT. The statements about the forward engine (spec/40_forward.md), each from the lemmas above. -/

namespace Sys2Proof.Machine

/-! ### The two forms and the bit order (R105, R106) -/

/-- Settles O29: the two byte steps agree (`fwdByteTab_eq_fwdByte`), so the commands do not depend on REF. -/
theorem tableFormEqualsBitSerial : Obligations.TableFormEqualsBitSerial :=
  ⟨fun _ _ p i => ⟨tableEntry_eq_fwdByte p i, rfl⟩,
    fun _ hw r p b => fwdByteTab_eq_fwdByte (eight_le_of_width hw) r b p,
    fun s rb rf => crcCommand_ref (by decide) false true rb rf s,
    fun s rb rf => crcCommand_ref (by decide) false true rb rf s,
    fun s => searchCommand_ref (by decide) false true s,
    fun s => searchCommand_ref (by decide) false true s⟩

/-- Settles O30: each shift takes in the leading data bit (`shiftStep_xor_highByte`). -/
theorem byteStepIsEightBitSteps : Obligations.ByteStepIsEightBitSteps := by
  refine ⟨fun w hw r p b => fwdByte_eq_fbits (eight_le_of_width hw) r b p, fun w _ r p d => ?_⟩
  rw [fbit_eq, BitVec.xor_comm, BitVec.msb_eq_getLsbD_last]
  cases r.getLsbD (w - 1) <;> cases d <;> rfl

/-! ### The input transform (R107, R108) -/

/-- Settles O31: RB is the reverse of the list (`xform_true`), read from its other end. -/
theorem transformReversesAndReflects : Obligations.TransformReversesAndReflects := by
  refine ⟨fun buf rf k hk => ?_, fun buf k => List.getElem?_map, length_xform, fun b i => getLsbD_reflect8 b⟩
  rw [xform_true, List.getElem?_reverse (by rwa [length_xform]), length_xform]

/-- Settles O32: reversing commutes with a map, and both are their own inverses (`reflect8_reflect8`). -/
theorem transformLaws : Obligations.TransformLaws := by
  refine ⟨fun c => ?_, reflect8_reflect8, fun c => ?_, fun c => ?_, xform_false_false⟩
  · simp
  · simp [Function.comp_def]
  · simp

/-! ### The register as a function of the seed (R110), and the polynomial 0 -/

/-- Settles O34: an injective map of a finite type is a bijection, and bit 0 is what an even polynomial never sets. -/
theorem coreIsAffineInSeed : Obligations.CoreIsAffineInSeed := fun _ hw buf p =>
  ⟨coreW_xor buf p, coreW_zeros_xor buf.length p,
    fun hp => Finite.injective_iff_bijective.1 (coreW_injective hp buf),
    fun hp hbuf h => coreW_not_surjective (eight_le_of_width hw) hp hbuf h.surjective⟩

/-- Settles O35: without feedback each byte only moves the register up, by all of width 8 and by half of width 16. -/
theorem zeroPolynomialHasNoFeedback : Obligations.ZeroPolynomialHasNoFeedback := by
  refine ⟨fun r b => ?_, fwdByte_zero_poly (by decide), fun buf s x hbuf => ?_, fun buf s x hbuf => ?_⟩
  · rw [fwdByte_zero_poly (by decide), BitVec.shiftLeft_eq_zero le_rfl]
  · have := List.length_pos_iff.2 hbuf
    exact crc_zero_poly (by decide) (by omega) s x
  · exact crc_zero_poly (by decide) (by omega) s x

/-! ### The commands (R109, R111, R112) -/

/-- A CRC command with its input completes with the bit-serial CRC of the transformed buffer, whatever REF is. -/
theorem crcCommand_of_input {w : Nat} (hw : 8 ≤ w) {s : State} {buf : List Byte} (h : HasInput s buf) (ref rb rf : Bool) :
    crcCommand w ref rb rf s =
      .next (afterCrc ((crc (xform buf rb rf) (opPoly w s) (opSeed w s) (opXorOut w s)).setWidth 16) s) := by
  rw [crcCommand, runCommand_ok h, complete_okCrc, crcBy_eq_crc hw]

/-- Settles O14: CRC8 is the CRC command of width 8. -/
theorem crc8Result : Obligations.Crc8Result := fun _ ref rb rf _ h =>
  crcCommand_of_input (w := 8) (by decide) h ref rb rf

/-- Settles O15: at width 16 an operand is its register, and the CRC is CRC_OUT. -/
theorem crc16Result : Obligations.Crc16Result := by
  intro s ref rb rf buf h
  have hrun := crcCommand_of_input (w := 16) (by decide) h ref rb rf
  simpa [opPoly, opSeed, opXorOut, operand, exec, execCrc16] using hrun

/-- With LEN 0 the input is the empty buffer, whatever BUF holds (R28, R109). -/
theorem hasInput_nil {s : State} (h : s.len = 0) : HasInput s [] := by
  simp [HasInput, opLen, h, bufBytes, bufBytesFrom]

/-- Settles O33: the empty buffer, transformed or not, leaves the seed. -/
theorem emptyBufferGivesSeedXorOut : Obligations.EmptyBufferGivesSeedXorOut := by
  refine ⟨fun _ _ _ _ _ => ⟨rfl, rfl⟩, fun s ref rb rf hlen => ⟨?_, ?_⟩⟩
  · rw [crc8Result s ref rb rf [] (hasInput_nil hlen), xform_nil]; rfl
  · rw [crc16Result s ref rb rf [] (hasInput_nil hlen), xform_nil]; rfl

end Sys2Proof.Machine
end

section
/-! SUPPORT. Ranges (R120). Read as naturals a range is the library's interval `List.range'`, from which its length, its
elements, their order and where it splits all follow, at every width. -/

namespace Sys2Proof.Machine

variable {w : Nat}

/-- A value below another is not the maximum, so its increment does not wrap. -/
theorem toNat_add_one_of_lt {a b : BitVec w} (h : a < b) : (a + 1).toNat = a.toNat + 1 := by
  have hb := b.isLt
  rw [BitVec.lt_def] at h
  have hone : (1 : BitVec w).toNat = 1 := Nat.mod_eq_of_lt (a := 1) (b := 2 ^ w) (by omega)
  rw [BitVec.toNat_add_of_lt (by omega), hone]

/-- The loop stops as its bound runs out, one value after the other and without a wrap (R120). -/
theorem map_toNat_rangeLoop {n : Nat} {a b : BitVec w} (h : a.toNat + n = b.toNat) :
    (rangeLoop n a b).map BitVec.toNat = List.range' a.toNat (n + 1) := by
  induction n generalizing a with
  | zero => rfl
  | succ n ih =>
    have hlt : a < b := BitVec.lt_def.2 (by omega)
    have hnext := toNat_add_one_of_lt hlt
    rw [rangeLoop, if_neg (BitVec.ne_of_lt hlt), List.map_cons, ih (by omega), hnext, ← List.range'_succ]

theorem map_toNat_range {a b : BitVec w} (h : a ≤ b) :
    (range a b).map BitVec.toNat = List.range' a.toNat (b.toNat - a.toNat + 1) :=
  map_toNat_rangeLoop (Nat.add_sub_cancel' h)

theorem length_range {a b : BitVec w} (h : a ≤ b) : (range a b).length = b.toNat - a.toNat + 1 := by
  simpa using congrArg List.length (map_toNat_range h)

theorem getElem?_range {a b : BitVec w} (h : a ≤ b) {k : Nat} (hk : k ≤ b.toNat - a.toNat) :
    (range a b)[k]? = some (a + BitVec.ofNat w k) := by
  have hnat : ((range a b)[k]?).map BitVec.toNat = some (a.toNat + k) := by
    rw [← List.getElem?_map, map_toNat_range h, List.getElem?_range' (by omega), one_mul]
  obtain ⟨v, hv, hvk⟩ := Option.map_eq_some_iff.1 hnat
  rw [hv, ← BitVec.setWidth_eq v, ← BitVec.ofNat_toNat, hvk, BitVec.ofNat_add, BitVec.ofNat_toNat, BitVec.setWidth_eq]

theorem mem_range {a b : BitVec w} (h : a ≤ b) (v : BitVec w) : v ∈ range a b ↔ a ≤ v ∧ v ≤ b := by
  rw [← List.mem_map_of_injective BitVec.toNat_injective, map_toNat_range h, List.mem_range'_1]
  simp only [BitVec.le_def] at h ⊢
  omega

theorem pairwise_lt_range {a b : BitVec w} (h : a ≤ b) : (range a b).Pairwise (· < ·) := by
  have hnat : ((range a b).map BitVec.toNat).Pairwise (· < ·) := map_toNat_range h ▸ List.pairwise_lt_range'
  exact (List.pairwise_map (f := BitVec.toNat)).1 hnat

theorem nodup_range {a b : BitVec w} (h : a ≤ b) : (range a b).Nodup :=
  (pairwise_lt_range h).imp BitVec.ne_of_lt

/-- A range is its part up to a value before its end, then its part above that value. -/
theorem range_eq_append {a m b : BitVec w} (ham : a ≤ m) (hmb : m < b) :
    range a b = range a m ++ range (m + 1) b := by
  have hsucc := toNat_add_one_of_lt hmb
  rw [BitVec.lt_def] at hmb
  have hab : a ≤ b := ham.trans hmb.le
  have hsb : m + 1 ≤ b := BitVec.le_def.2 (by omega)
  rw [BitVec.le_def] at ham
  apply List.map_injective_iff.2 BitVec.toNat_injective
  rw [List.map_append, map_toNat_range ham, map_toNat_range hsb, map_toNat_range hab, hsucc,
    show m.toNat + 1 = a.toNat + (m.toNat - a.toNat + 1) by omega, List.range'_append_1]
  congr 1
  omega

end Sys2Proof.Machine
end

section
/-! SUPPORT. The nested search (R121): its records, and its closed form (R122). -/

namespace Sys2Proof.Machine

variable {w : Nat}

theorem mem_search {ref : Bool} {buf : List Byte} {p t sa se xa xe s x : BitVec w} :
    (s, x) ∈ search ref buf p t sa se xa xe ↔ s ∈ range sa se ∧ x ∈ range xa xe ∧ crcBy ref buf p s x = t := by
  simp [search]

/-- Exactly one output XOR turns a seed's register into the target (R122). -/
theorem crc_eq_iff (buf : List Byte) (p s x t : BitVec w) : crc buf p s x = t ↔ x = coreW buf p s ^^^ t := by
  rw [crc, ← BitVec.xor_right_inj (coreW buf p s), ← BitVec.xor_assoc, BitVec.xor_self, BitVec.zero_xor]

/-- The values of a range that equal a given one: that value, if the range holds it. -/
theorem filter_range_eq {a b : BitVec w} (h : a ≤ b) (v : BitVec w) :
    (range a b).filter (fun x => x == v) = if a ≤ v ∧ v ≤ b then [v] else [] := by
  rw [List.filter_beq, (nodup_range h).count]
  simp only [mem_range h]
  split <;> rfl

/-- The search by either form is its closed form: of the inner loop one value is left, or none (R122). -/
theorem search_eq_searchPairs (hw : 8 ≤ w) {xa xe : BitVec w} (hx : xa ≤ xe) (ref : Bool) (buf : List Byte)
    (p t sa se : BitVec w) : search ref buf p t sa se xa xe = searchPairs buf p t sa se xa xe := by
  rw [search, searchPairs, List.filterMap_eq_flatMap_toList]
  refine List.flatMap_congr fun s _ => ?_
  have htest (x : BitVec w) : (crcBy ref buf p s x == t) = (x == coreW buf p s ^^^ t) := by
    rw [crcBy_eq_crc hw, Bool.eq_iff_iff, beq_iff_eq, beq_iff_eq, crc_eq_iff]
  simp only [htest, filter_range_eq hx]
  split <;> rfl

/-- A seed gives at most one record (R122). -/
theorem length_searchPairs_le {sa se : BitVec w} (hs : sa ≤ se) (buf : List Byte) (p t xa xe : BitVec w) :
    (searchPairs buf p t sa se xa xe).length ≤ se.toNat - sa.toNat + 1 :=
  length_range hs ▸ List.length_filterMap_le _ _

/-! ### The command -/

/-- Records that fit RESULT_CAP are the command's (R42). -/
theorem complete_limitRecords_of_le {s : State} {l : List (BitVec w × BitVec w)} (h : l.length ≤ s.params.resultCap) :
    complete (limitRecords s.params.resultCap l) s = afterRecords (l.map record) s := by
  rw [limitRecords, if_neg (Nat.not_lt.2 h), complete_okRecords]

/-- Records that do not fit RESULT_CAP end the command with RESOURCE_EXHAUSTED (R176). -/
theorem complete_limitRecords_of_lt {s : State} {l : List (BitVec w × BitVec w)} (h : s.params.resultCap < l.length) :
    complete (limitRecords s.params.resultCap l) s = afterError .resourceExhausted s := by
  rw [limitRecords, if_pos h, complete_err]

theorem searchRangeError_eq_none {s : State} (h : SearchRangesValid w s) : searchRangeError w s = none :=
  ((searchRangeError_cases w s).resolve_right fun h' => h'.1 h).2

/-- A SEARCH command with its input and valid ranges gives the records of the closed form, whatever REF is, when they fit
RESULT_CAP, and RESOURCE_EXHAUSTED when they do not (R122, R176). -/
theorem searchCommand_of_input (hw : 8 ≤ w) {s : State} {buf : List Byte} (h : HasInput s buf)
    (hr : SearchRangesValid w s) (ref : Bool) :
    let l := searchPairs buf (opPoly w s) (opTarget w s) (opSeedStart w s) (opSeedEnd w s) (opXorStart w s) (opXorEnd w s)
    (l.length ≤ s.params.resultCap → searchCommand w ref s = .next (afterRecords (l.map record) s)) ∧
    (s.params.resultCap < l.length → searchCommand w ref s = .next (afterError .resourceExhausted s)) := by
  intro l
  have hrun : searchCommand w ref s = .next (complete (limitRecords s.params.resultCap l) s) := by
    rw [searchCommand, searchRangeError_eq_none hr, runCommand_ok h, search_eq_searchPairs hw hr.2]
  exact ⟨fun hl => by rw [hrun, complete_limitRecords_of_le hl], fun hl => by rw [hrun, complete_limitRecords_of_lt hl]⟩

/-- At width 16 an operand is its register. -/
@[simp] theorem operand_sixteen (v : BitVec 16) : operand 16 v = v := BitVec.setWidth_eq v

end Sys2Proof.Machine
end

section
/-! SUPPORT. The statements about the range search (spec/41_search.md), each from the lemmas above. -/

namespace Sys2Proof.Machine

/-- Settles O36: a range is an interval of naturals (`map_toNat_range`). -/
theorem rangeVisitsEachValueOnce : Obligations.RangeVisitsEachValueOnce := fun _ _ _ _ h =>
  ⟨length_range h, fun _ => getElem?_range h, mem_range h, pairwise_lt_range h⟩

/-- Settles O37: the inner loop keeps the one XOR that turns the seed's register into the target, if it is in the range. -/
theorem searchMatchesOncePerSeed : Obligations.SearchMatchesOncePerSeed := by
  intro w hw ref buf p t sa se xa xe hs hx
  have hclosed := search_eq_searchPairs (eight_le_of_width hw) hx ref buf p t sa se
  have hend := se.isLt
  exact ⟨fun s x => crc_eq_iff buf p s x t, hclosed, hclosed ▸ length_searchPairs_le hs buf p t xa xe, by omega⟩

/-- Settles O38: each loop runs over a split range as over its two parts (`range_eq_append`), the outer one in order. -/
theorem searchSplitsBySeed : Obligations.SearchSplitsBySeed := by
  refine fun w _ ref buf p t sa m se xa xe => ⟨fun ham hmb => ?_, fun ham hmb r => ?_⟩
  · rw [search, range_eq_append ham hmb, List.flatMap_append]; rfl
  · obtain ⟨s, x⟩ := r
    simp only [mem_search, range_eq_append ham hmb, List.mem_append]
    tauto

/-- Settles O16: SEARCH8 is the SEARCH command of width 8. -/
theorem search8Result : Obligations.Search8Result := fun _ ref _ h hr =>
  searchCommand_of_input (w := 8) (by decide) h hr ref

/-- Settles O17: at width 16 an operand is its register (`operand_sixteen`). -/
theorem search16Result : Obligations.Search16Result := by
  intro s ref buf h hr
  have hrun := searchCommand_of_input (w := 16) (by decide) h hr ref
  simpa [opPoly, opTarget, opSeedStart, opSeedEnd, opXorStart, opXorEnd, exec, execSearch16] using hrun

end Sys2Proof.Machine
end

section
/-! SUPPORT. The reverse bit step (R140): a shift undone, the predecessors of a value, and how many there are (R141). -/

namespace Sys2Proof.Machine

variable {w : Nat}

/-! ### A shift undone -/

/-- The register that a shift takes to `v` when its top bit was `b` and `v` ends in 0 (R140). -/
def unshift (v : BitVec w) (b : Bool) : BitVec w :=
  (v >>> 1) ||| topBit w b

theorem topBit_eq (d : Bool) : topBit w d = if d then BitVec.twoPow w (w - 1) else 0#w := by
  cases d with
  | false => simp [topBit]
  | true =>
    have hone : (1#1).setWidth w = 1#w := BitVec.eq_of_toNat_eq (by simp)
    simp [topBit, BitVec.twoPow, hone]

theorem getLsbD_unshift (v : BitVec w) (b : Bool) {i : Nat} (hi : i < w) :
    (unshift v b).getLsbD i = if i = w - 1 then b else v.getLsbD (i + 1) := by
  have hbeyond : v.getLsbD w = false := v.getLsbD_of_ge w le_rfl
  cases b <;> simp [unshift, topBit_eq] <;> grind

theorem msb_unshift (hw : 0 < w) (v : BitVec w) (b : Bool) : (unshift v b).msb = b := by
  rw [BitVec.msb_eq_getLsbD_last, getLsbD_unshift v b (by omega), if_pos rfl]

/-- A value that ends in 0 is the shift of one register for each top bit. -/
theorem eq_unshift_iff (hw : 0 < w) {v : BitVec w} (hv : v.getLsbD 0 = false) {q : BitVec w} {b : Bool} :
    q = unshift v b ↔ q <<< 1 = v ∧ q.msb = b := by
  constructor
  · rintro rfl
    refine ⟨BitVec.eq_of_getLsbD_eq fun i hi => ?_, msb_unshift hw v b⟩
    cases i with
    | zero => simp [hv]
    | succ i =>
      rw [BitVec.getLsbD_shiftLeft, Nat.add_sub_cancel, getLsbD_unshift v b (by omega)]
      simp [hi, show i ≠ w - 1 by omega]
  · rintro ⟨rfl, rfl⟩
    refine BitVec.eq_of_getLsbD_eq fun i hi => ?_
    rw [getLsbD_unshift _ _ hi, BitVec.msb_eq_getLsbD_last]
    split
    · next hlast => rw [hlast]
    · next hlast => simp [-BitVec.getLsbD_eq_getElem, show i + 1 < w by omega]

/-! ### The predecessors of a value -/

/-- The two hypotheses of R140 in order. -/
theorem rev_eq (r' : BitVec w) (d : Bool) (p : BitVec w) :
    rev r' d p = (if r'.getLsbD 0 then [] else [unshift r' d]) ++
      (if (r' ^^^ p).getLsbD 0 then [] else [unshift (r' ^^^ p) (!d)]) := rfl

/-- A bit step shifts, and takes the polynomial in where the top bit differs from the data bit (R106). -/
theorem fbit_eq_iff (q : BitVec w) (d : Bool) (p r' : BitVec w) :
    fbit q d p = r' ↔ (q <<< 1 = r' ∧ q.msb = d) ∨ (q <<< 1 = r' ^^^ p ∧ q.msb = !d) := by
  have hxor : q <<< 1 ^^^ p = r' ↔ q <<< 1 = r' ^^^ p := by
    rw [← BitVec.xor_left_inj p, BitVec.xor_assoc, BitVec.xor_self, BitVec.xor_zero]
  unfold fbit
  cases q.msb <;> cases d <;> simp [hxor]

/-- Each hypothesis gives its register exactly when the value it shifts back ends in 0. -/
theorem mem_singleton_unshift_iff (hw : 0 < w) (v q : BitVec w) (b : Bool) :
    q ∈ (if v.getLsbD 0 then [] else [unshift v b]) ↔ q <<< 1 = v ∧ q.msb = b := by
  cases hv : v.getLsbD 0 with
  | true =>
    have hne : q <<< 1 ≠ v := fun h => by simp [← h] at hv
    simp [hne]
  | false => simp [eq_unshift_iff hw hv]

/-- R140: the predecessors of a value are the values that a bit step takes to it. -/
theorem mem_rev (hw : 0 < w) {r' : BitVec w} {d : Bool} {p q : BitVec w} : q ∈ rev r' d p ↔ fbit q d p = r' := by
  rw [rev_eq, List.mem_append, mem_singleton_unshift_iff hw, mem_singleton_unshift_iff hw, fbit_eq_iff]

/-! ### How many predecessors (R141) -/

theorem length_rev_of_odd {p : BitVec w} (hp : p.getLsbD 0 = true) (r' : BitVec w) (d : Bool) :
    (rev r' d p).length = 1 := by
  rw [rev_eq, BitVec.getLsbD_xor, hp]
  cases r'.getLsbD 0 <;> rfl

theorem rev_of_even {p : BitVec w} (hp : p.getLsbD 0 = false) (r' : BitVec w) (d : Bool) :
    rev r' d p = if r'.getLsbD 0 then [] else [unshift r' d, unshift (r' ^^^ p) (!d)] := by
  rw [rev_eq, BitVec.getLsbD_xor, hp]
  cases r'.getLsbD 0 <;> rfl

/-- The two hypotheses differ in the top bit, so they never give the same register. -/
theorem nodup_rev (hw : 0 < w) (r' : BitVec w) (d : Bool) (p : BitVec w) : (rev r' d p).Nodup := by
  have hne : unshift r' d ≠ unshift (r' ^^^ p) (!d) := fun h => by
    simpa [msb_unshift hw] using congrArg BitVec.msb h
  rw [rev_eq]
  cases r'.getLsbD 0 <;> cases (r' ^^^ p).getLsbD 0 <;> simp [hne]

end Sys2Proof.Machine
end

section
/-! SUPPORT. The walk (R142, R143): it never overflows CAND_CAP, and holds exactly the seeds that reach the target (R144). -/

namespace Sys2Proof.Machine

variable {w : Nat}

/-! ### How many values there are -/

/-- Every value lies between the ends of the range of all values. -/
theorem zero_le_and_le_allOnes (v : BitVec w) : 0#w ≤ v ∧ v ≤ BitVec.allOnes w := by
  have hv := v.isLt
  rw [BitVec.le_def, BitVec.le_def, BitVec.toNat_allOnes, BitVec.toNat_ofNat, Nat.zero_mod]
  omega

theorem fullRange_valid : 0#w ≤ BitVec.allOnes w :=
  (zero_le_and_le_allOnes _).1

/-- The range of all values holds each of them. -/
theorem mem_fullRange (v : BitVec w) : v ∈ range 0#w (BitVec.allOnes w) :=
  (mem_range fullRange_valid v).2 (zero_le_and_le_allOnes v)

theorem length_fullRange : (range 0#w (BitVec.allOnes w)).length = 2 ^ w := by
  have hpos := Nat.two_pow_pos w
  rw [length_range fullRange_valid, BitVec.toNat_allOnes, BitVec.toNat_ofNat, Nat.zero_mod]
  omega

theorem length_le_of_nodup {g : List (BitVec w)} (h : g.Nodup) : g.length ≤ 2 ^ w :=
  length_fullRange (w := w) ▸ (h.subperm fun v _ => mem_fullRange v).length_le

/-! ### A generation step (R142) -/

/-- The next generation holds the values that the bit step takes into this one. -/
theorem mem_genStep (hw : 0 < w) {g : List (BitVec w)} {d : Bool} {p q : BitVec w} :
    q ∈ genStep g d p ↔ fbit q d p ∈ g := by
  simp [genStep, mem_rev hw]

/-- Two candidates share no predecessor, since a bit step has one result (R144). -/
theorem nodup_genStep (hw : 0 < w) {g : List (BitVec w)} (hg : g.Nodup) (d : Bool) (p : BitVec w) :
    (genStep g d p).Nodup := by
  refine List.nodup_flatMap.2 ⟨fun r _ => nodup_rev hw r d p, hg.imp fun hne q hq hq' => hne ?_⟩
  rw [← (mem_rev hw).1 hq, ← (mem_rev hw).1 hq']

theorem length_genStep_of_odd {p : BitVec w} (hp : p.getLsbD 0 = true) (g : List (BitVec w)) (d : Bool) :
    (genStep g d p).length = g.length := by
  simp [genStep, length_rev_of_odd hp]

theorem even_length_genStep {p : BitVec w} (hp : p.getLsbD 0 = false) (g : List (BitVec w)) (d : Bool) :
    Even (genStep g d p).length := by
  induction g with
  | nil => simp [genStep]
  | cons r g ih =>
    have hrev : Even (rev r d p).length := by
      rw [rev_of_even hp]
      split <;> simp
    rw [genStep, List.flatMap_cons, List.length_append]
    exact hrev.add ih

/-! ### The walk over a list of data bits (R143) -/

/-- The last generation of the walk, with no limit on any. -/
def walk (p : BitVec w) (ds : List Bool) (g : List (BitVec w)) : List (BitVec w) :=
  ds.foldl (fun g d => genStep g d p) g

@[simp] theorem walk_nil (p : BitVec w) (g : List (BitVec w)) : walk p [] g = g := rfl

@[simp] theorem walk_cons (p : BitVec w) (d : Bool) (ds : List Bool) (g : List (BitVec w)) :
    walk p (d :: ds) g = walk p ds (genStep g d p) := rfl

/-- An empty generation stays empty, so the walk may end there. -/
@[simp] theorem walk_empty (p : BitVec w) (ds : List Bool) : walk p ds [] = [] := by
  induction ds with
  | nil => rfl
  | cons d ds ih => exact ih

/-- The walk goes back through the bit steps that the forward engine takes last bit first. -/
theorem mem_walk (hw : 0 < w) {p : BitVec w} {ds : List Bool} {g : List (BitVec w)} {s : BitVec w} :
    s ∈ walk p ds g ↔ ds.foldr (fun d r => fbit r d p) s ∈ g := by
  induction ds generalizing g with
  | nil => rfl
  | cons d ds ih => rw [walk_cons, ih, mem_genStep hw, List.foldr_cons]

theorem nodup_walk (hw : 0 < w) (p : BitVec w) (ds : List Bool) {g : List (BitVec w)} (hg : g.Nodup) :
    (walk p ds g).Nodup := by
  induction ds generalizing g with
  | nil => exact hg
  | cons d ds ih => exact ih (nodup_genStep hw hg d p)

theorem length_walk_of_odd {p : BitVec w} (hp : p.getLsbD 0 = true) (ds : List Bool) (g : List (BitVec w)) :
    (walk p ds g).length = g.length := by
  induction ds generalizing g with
  | nil => rfl
  | cons d ds ih => rw [walk_cons, ih, length_genStep_of_odd hp]

/-- The last generation of a walk of at least one bit is a generation step's. -/
theorem even_length_walk {p : BitVec w} (hp : p.getLsbD 0 = false) {ds : List Bool} (hds : ds ≠ []) (g : List (BitVec w)) :
    Even (walk p ds g).length := by
  obtain ⟨init, d, rfl⟩ := (List.eq_nil_or_concat' ds).resolve_left hds
  rw [walk, List.foldl_append]
  exact even_length_genStep hp _ d

/-- No generation without repeats can pass CAND_CAP, so the walk ends with its last one (R144, R176). -/
theorem invertBits_eq_walk (hw : 0 < w) (hcap : 2 ^ w ≤ Config.candCap) (p : BitVec w) (ds : List Bool)
    {g : List (BitVec w)} (hg : g.Nodup) : invertBits p ds g = some (walk p ds g) := by
  induction ds generalizing g with
  | nil => rfl
  | cons d ds ih =>
    have hnext := nodup_genStep hw hg d p
    rw [invertBits, if_neg (Nat.not_lt.2 ((length_le_of_nodup hnext).trans hcap)), ih hnext, walk_cons]
    split
    · simp [*]
    · rfl

/-! ### The inversion of a buffer (R143, R144) -/

/-- The walk takes the bits of the buffer in the opposite order to the forward engine (R106, R143). -/
theorem foldr_fbit_eq_coreW (hw : 8 ≤ w) (buf : List Byte) (p s : BitVec w) :
    (buf.reverse.flatMap bitsLsbFirst).foldr (fun d r => fbit r d p) s = coreW buf p s := by
  induction buf generalizing s with
  | nil => rfl
  | cons b buf ih =>
    have hbyte : (bitsLsbFirst b).foldr (fun d r => fbit r d p) s = fwdByte s b p := by
      rw [fwdByte_eq_fbits hw]; rfl
    rw [List.reverse_cons, List.flatMap_append, List.foldr_append, List.flatMap_singleton, hbyte, ih, coreW_cons]

/-- The walk of `invert` (R143), with no limit on any generation. -/
def seedsReaching (buf : List Byte) (p t : BitVec w) : List (BitVec w) :=
  walk p (buf.reverse.flatMap bitsLsbFirst) [t]

theorem candCap_of_width (hw : w = 8 ∨ w = 16) : 2 ^ w ≤ Config.candCap := by
  rcases hw with rfl | rfl <;> decide

theorem invert_eq (hw : w = 8 ∨ w = 16) (buf : List Byte) (p t : BitVec w) :
    invert buf p t = some (seedsReaching buf p t) :=
  invertBits_eq_walk (by omega) (candCap_of_width hw) p _ (List.nodup_singleton t)

theorem mem_seedsReaching (hw : 8 ≤ w) {buf : List Byte} {p t s : BitVec w} :
    s ∈ seedsReaching buf p t ↔ coreW buf p s = t := by
  rw [seedsReaching, mem_walk (by omega), foldr_fbit_eq_coreW hw, List.mem_singleton]

theorem nodup_seedsReaching (hw : 8 ≤ w) (buf : List Byte) (p t : BitVec w) : (seedsReaching buf p t).Nodup :=
  nodup_walk (by omega) p _ (List.nodup_singleton t)

theorem length_seedsReaching_of_odd {p : BitVec w} (hp : p.getLsbD 0 = true) (buf : List Byte) (t : BitVec w) :
    (seedsReaching buf p t).length = 1 :=
  length_walk_of_odd hp _ [t]

theorem even_length_seedsReaching {p : BitVec w} (hp : p.getLsbD 0 = false) {buf : List Byte} (hbuf : buf ≠ [])
    (t : BitVec w) : Even (seedsReaching buf p t).length := by
  refine even_length_walk hp (fun h => ?_) [t]
  obtain ⟨b, hb⟩ := List.exists_mem_of_ne_nil buf hbuf
  exact absurd (List.flatMap_eq_nil_iff.1 h b (List.mem_reverse.2 hb)) (List.cons_ne_nil _ _)

end Sys2Proof.Machine
end

section
/-! SUPPORT. The inversion over a range of output XORs (R146), in closed form, and its consequences (R147). -/

namespace Sys2Proof.Machine

variable {w : Nat}

/-- The records of R146 over a list of output XORs: the seeds that each leaves to reach, in order. -/
def pairsReaching (buf : List Byte) (p t : BitVec w) (xs : List (BitVec w)) : List (BitVec w × BitVec w) :=
  xs.flatMap fun x => (seedsReaching buf p (t ^^^ x)).map fun c => (c, x)

theorem invrangeOver_eq (hw : w = 8 ∨ w = 16) (buf : List Byte) (p t : BitVec w) (xs : List (BitVec w)) :
    invrangeOver buf p t xs = some (pairsReaching buf p t xs) := by
  induction xs with
  | nil => rfl
  | cons x xs ih => simp only [invrangeOver, invert_eq hw, ih, pairsReaching, List.flatMap_cons]

theorem invrange_eq (hw : w = 8 ∨ w = 16) (buf : List Byte) (p t xa xe : BitVec w) :
    invrange buf p t xa xe = some (pairsReaching buf p t (range xa xe)) :=
  invrangeOver_eq hw buf p t _

theorem mem_pairsReaching (hw : 8 ≤ w) {buf : List Byte} {p t c x : BitVec w} {xs : List (BitVec w)} :
    (c, x) ∈ pairsReaching buf p t xs ↔ x ∈ xs ∧ crc buf p c x = t := by
  have hcrc : coreW buf p c = t ^^^ x ↔ crc buf p c x = t := by
    rw [crc, ← BitVec.xor_left_inj x, BitVec.xor_assoc, BitVec.xor_self, BitVec.xor_zero]
  simp [pairsReaching, mem_seedsReaching hw, hcrc]

/-- A seed fits one output XOR, so it is in one record at most (R147). -/
theorem nodup_fst_pairsReaching (hw : 8 ≤ w) (buf : List Byte) (p t : BitVec w) {xs : List (BitVec w)} (hxs : xs.Nodup) :
    ((pairsReaching buf p t xs).map Prod.fst).Nodup := by
  have hfst : (pairsReaching buf p t xs).map Prod.fst = xs.flatMap fun x => seedsReaching buf p (t ^^^ x) := by
    simp [pairsReaching, List.map_flatMap, Function.comp_def]
  rw [hfst]
  refine List.nodup_flatMap.2 ⟨fun x _ => nodup_seedsReaching hw buf p _, hxs.imp fun hne c hc hc' => hne ?_⟩
  rw [mem_seedsReaching hw] at hc hc'
  exact (BitVec.xor_right_inj t).1 (hc.symm.trans hc')

theorem nodup_pairsReaching (hw : 8 ≤ w) (buf : List Byte) (p t : BitVec w) {xs : List (BitVec w)} (hxs : xs.Nodup) :
    (pairsReaching buf p t xs).Nodup :=
  (nodup_fst_pairsReaching hw buf p t hxs).of_map _

theorem length_pairsReaching_le (hw : 8 ≤ w) (buf : List Byte) (p t : BitVec w) {xs : List (BitVec w)} (hxs : xs.Nodup) :
    (pairsReaching buf p t xs).length ≤ 2 ^ w :=
  List.length_map (as := pairsReaching buf p t xs) Prod.fst ▸ length_le_of_nodup (nodup_fst_pairsReaching hw buf p t hxs)

/-- The output XORs of the records are those of the list, each as often as there are seeds for it. -/
theorem map_snd_pairsReaching (buf : List Byte) (p t : BitVec w) (xs : List (BitVec w)) :
    (pairsReaching buf p t xs).map Prod.snd =
      xs.flatMap fun x => List.replicate (seedsReaching buf p (t ^^^ x)).length x := by
  simp [pairsReaching, List.map_flatMap, Function.comp_def]

theorem map_snd_pairsReaching_of_odd {p : BitVec w} (hp : p.getLsbD 0 = true) (buf : List Byte) (t : BitVec w)
    (xs : List (BitVec w)) : (pairsReaching buf p t xs).map Prod.snd = xs := by
  simp [map_snd_pairsReaching, length_seedsReaching_of_odd hp]

theorem pairwise_snd_pairsReaching (buf : List Byte) (p t : BitVec w) {xs : List (BitVec w)} (hxs : xs.Pairwise (· < ·)) :
    ((pairsReaching buf p t xs).map Prod.snd).Pairwise (· ≤ ·) := by
  rw [map_snd_pairsReaching, List.pairwise_flatMap]
  refine ⟨fun x _ => by simp, hxs.imp fun hlt y hy z hz => ?_⟩
  rw [List.eq_of_mem_replicate hy, List.eq_of_mem_replicate hz]
  exact BitVec.le_of_lt hlt

/-- Over all output XORs each seed is in exactly one record (R147). -/
theorem length_pairsReaching_fullRange (hw : 8 ≤ w) (buf : List Byte) (p t : BitVec w) :
    (pairsReaching buf p t (range 0#w (BitVec.allOnes w))).length = 2 ^ w := by
  have hvalues := nodup_range (fullRange_valid (w := w))
  have hseeds := (List.perm_ext_iff_of_nodup (nodup_fst_pairsReaching hw buf p t hvalues) hvalues).2 fun c =>
    iff_of_true (List.mem_map.2 ⟨(c, coreW buf p c ^^^ t), ?_, rfl⟩) (mem_fullRange c)
  · rw [← length_fullRange, ← hseeds.length_eq, List.length_map]
  · exact (mem_pairsReaching hw).2 ⟨mem_fullRange _, (crc_eq_iff buf p c _ t).2 rfl⟩

end Sys2Proof.Machine
end

section
/-! SUPPORT. The commands INVERT and INVRANGE (R148 to R151): the records of the closed forms under RESULT_CAP (R176). -/

namespace Sys2Proof.Machine

variable {w : Nat}

/-- A command that computes records from its input gives them when they fit RESULT_CAP, and RESOURCE_EXHAUSTED when they do
not (R42, R176). -/
theorem runCommand_limitRecords {s : State} {buf : List Byte} (h : HasInput s buf) {body : List Byte → CmdOutcome w}
    {l : List (BitVec w × BitVec w)} (hbody : body buf = limitRecords s.params.resultCap l) :
    (l.length ≤ s.params.resultCap → runCommand s none body = .next (afterRecords (l.map record) s)) ∧
    (s.params.resultCap < l.length → runCommand s none body = .next (afterError .resourceExhausted s)) := by
  rw [runCommand_ok h, hbody]
  exact ⟨fun hl => by rw [complete_limitRecords_of_le hl], fun hl => by rw [complete_limitRecords_of_lt hl]⟩

/-- The record of a candidate with XOR 0 is the candidate, zero-extended (R56, R148). -/
theorem record_zero (c : BitVec w) : record (c, 0) = c.setWidth 32 := by
  simp [record]

theorem map_record_invert (g : List (BitVec w)) : (g.map fun c => (c, 0)).map record = g.map fun c => c.setWidth 32 := by
  simp only [List.map_map, Function.comp_def, record_zero]

/-- INVERT with its input gives the seeds that reach the target, under RESULT_CAP (R148, R149). -/
theorem invertCommand_of_input (hw : w = 8 ∨ w = 16) {s : State} {buf : List Byte} (h : HasInput s buf) :
    let g := seedsReaching buf (opPoly w s) (opTarget w s)
    (g.length ≤ s.params.resultCap →
      invertCommand w s = .next (afterRecords (g.map fun c => c.setWidth 32) s)) ∧
    (s.params.resultCap < g.length → invertCommand w s = .next (afterError .resourceExhausted s)) := by
  intro g
  have hrun := runCommand_limitRecords h (l := g.map fun c => (c, 0))
    (body := fun buf => limitWalk s.params.resultCap (invertRecords (invert buf (opPoly w s) (opTarget w s))))
    (by rw [invert_eq hw]; rfl)
  rwa [map_record_invert, List.length_map] at hrun

theorem xorRangeError_eq_none {s : State} (h : XorRangeValid w s) : xorRangeError w s = none :=
  ((xorRangeError_cases w s).resolve_right fun h' => h'.1 h).2

/-- INVRANGE with its input and a valid range gives the pairs that give the observed CRC, under RESULT_CAP (R150, R151). -/
theorem invrangeCommand_of_input (hw : w = 8 ∨ w = 16) {s : State} {buf : List Byte} (h : HasInput s buf)
    (hr : XorRangeValid w s) :
    let l := pairsReaching buf (opPoly w s) (opTarget w s) (range (opXorStart w s) (opXorEnd w s))
    (l.length ≤ s.params.resultCap → invrangeCommand w s = .next (afterRecords (l.map record) s)) ∧
    (s.params.resultCap < l.length → invrangeCommand w s = .next (afterError .resourceExhausted s)) := by
  rw [invrangeCommand, xorRangeError_eq_none hr]
  exact runCommand_limitRecords h (by rw [invrange_eq hw]; rfl)

/-- Only a command that computed from its input ends with RESOURCE_EXHAUSTED (R172, R176). -/
theorem runCommand_exhausted {s t : State} {e : Option CmdError} {body : List Byte → CmdOutcome w}
    (h : runCommand s e body = .next t) (he : e ≠ some .resourceExhausted) (ht : t.status.err = some .resourceExhausted) :
    e = none ∧ ∃ buf, HasInput s buf := by
  rcases runCommand_cases s e body with
    ⟨_, hrun⟩ | ⟨_, e', rfl, hrun⟩ | ⟨_, _, k, _, hrun⟩ | ⟨hlen, hnone, buf, hbuf, _⟩
  · cases h.symm.trans hrun
    cases ht
  · cases h.symm.trans hrun
    exact absurd ht he
  · cases h.symm.trans hrun
  · exact ⟨hnone, buf, hlen, hbuf⟩

/-- An INVRANGE with room for one record a seed never ends with RESOURCE_EXHAUSTED (R147). -/
theorem invrangeCommand_not_exhausted (hw : w = 8 ∨ w = 16) {s t : State} (hcap : 2 ^ w ≤ s.params.resultCap)
    (h : invrangeCommand w s = .next t) : t.status.err ≠ some .resourceExhausted := by
  intro ht
  have hrange := xorRangeError_cases w s
  have herr : xorRangeError w s ≠ some .resourceExhausted := by
    rcases hrange with h' | h' <;> simp [h'.2]
  obtain ⟨hnone, buf, hin⟩ := runCommand_exhausted h herr ht
  have hvalid : XorRangeValid w s := (hrange.resolve_right fun h' => by simp [h'.2] at hnone).1
  have hlen := length_pairsReaching_le (eight_le_of_width hw) buf (opPoly w s) (opTarget w s) (nodup_range hvalid)
  cases h.symm.trans ((invrangeCommand_of_input hw hin hvalid).1 (hlen.trans hcap))
  cases ht

end Sys2Proof.Machine
end

section
/-! SUPPORT. The statements about the inversion engine (spec/42_inversion.md), each from the lemmas above. -/

namespace Sys2Proof.Machine

/-- Settles O39: `mem_rev`, and the two hypotheses as `rev` lists them, with the top bit written as a power of two. -/
theorem reverseStepIsExact : Obligations.ReverseStepIsExact := by
  intro w hw r' p d
  have hswap (b : Bool) (q : BitVec w) : (if b then [] else [q]) = if b = false then [q] else [] := by cases b <;> rfl
  refine ⟨fun q => mem_rev (by omega), ?_⟩
  rw [rev, hswap, hswap, topBit_eq, topBit_eq]
  cases d <;> rfl

/-- Settles O40: bit 0 of the polynomial decides whether the two tests of R140 agree. -/
theorem predecessorCounts : Obligations.PredecessorCounts := by
  intro w hw r' p d
  refine ⟨fun hp => length_rev_of_odd hp r' d, fun hp hr => ?_, fun hp hr => ?_⟩
  · rw [rev_of_even hp, hr]; rfl
  · refine ⟨unshift r' d, unshift (r' ^^^ p) (!d), by rw [rev_of_even hp, hr]; rfl, ?_⟩
    rw [msb_unshift (by omega), msb_unshift (by omega)]
    exact Bool.self_ne_not d

/-- Settles O41: the walk does not overflow (`invert_eq`) and is exact (`mem_seedsReaching`), since each of its steps is. -/
theorem inversionIsExact : Obligations.InversionIsExact := by
  intro w hw buf p t
  have hw8 := eight_le_of_width hw
  have hmem {t s : BitVec w} : s ∈ seedsReaching buf p t ↔ coreW buf p s = t := mem_seedsReaching hw8
  have hnodup := nodup_seedsReaching hw8 buf p t
  exact ⟨seedsReaching buf p t, invert_eq hw buf p t, hnodup, fun s => hmem, fun hbuf => hbuf ▸ rfl,
    length_le_of_nodup hnodup, candCap_of_width hw, fun hp => length_seedsReaching_of_odd hp buf t,
    fun hp hbuf => Nat.even_iff.1 (even_length_seedsReaching hp hbuf t),
    fun s => ⟨_, invert_eq hw buf p _, hmem.2 rfl⟩,
    fun hnone => List.eq_nil_iff_forall_not_mem.2 fun s hs => hnone s (hmem.1 hs),
    fun h d hh => nodup_genStep (by omega) hh d p⟩

/-- Settles O42: the closed form of the records (`invrange_eq`), in which a seed fits one output XOR. -/
theorem inversionRangeConsequences : Obligations.InversionRangeConsequences := by
  intro w hw buf p t
  have hw8 := eight_le_of_width hw
  refine ⟨fun xa xe hx => ?_, ?_, ?_, ?_⟩
  · refine ⟨_, invrange_eq hw buf p t xa xe, nodup_pairsReaching hw8 buf p t (nodup_range hx), fun c x => ?_, fun hp => ?_,
      length_pairsReaching_le hw8 buf p t (nodup_range hx)⟩
    · rw [mem_pairsReaching hw8, mem_range hx, and_comm]
    · have hsnd := map_snd_pairsReaching_of_odd hp buf t (range xa xe)
      exact ⟨hsnd, by rw [← length_range hx, ← congrArg List.length hsnd, List.length_map]⟩
  · refine ⟨_, invrange_eq hw buf p t _ _, length_pairsReaching_fullRange hw8 buf p t,
      nodup_fst_pairsReaching hw8 buf p t (nodup_range fullRange_valid), fun c x => ?_⟩
    rw [mem_pairsReaching hw8, and_iff_right (mem_fullRange x), crc_eq_iff]
  · rw [invrange_eq hw, invert_eq hw]
    simp [pairsReaching, range, rangeLoop, invertRecords]
  · rintro i s s' (rfl | rfl) hcap h
    · exact invrangeCommand_not_exhausted (w := 8) (.inl rfl) hcap.ge h
    · exact invrangeCommand_not_exhausted (w := 16) (.inr rfl) hcap.ge h

/-- Settles O18: INVERT8 is the INVERT command of width 8, its list the closed form of the walk. -/
theorem invert8Result : Obligations.Invert8Result := fun s buf h =>
  ⟨seedsReaching buf (opPoly 8 s) (opTarget 8 s), nodup_seedsReaching le_rfl _ _ _, fun _ => mem_seedsReaching le_rfl,
    invertCommand_of_input (.inl rfl) h⟩

/-- Settles O19: at width 16 an operand is its register (`operand_sixteen`). -/
theorem invert16Result : Obligations.Invert16Result := by
  intro s buf h
  have hrun := invertCommand_of_input (w := 16) (.inr rfl) h
  rw [opPoly, opTarget, operand_sixteen, operand_sixteen] at hrun
  exact ⟨_, nodup_seedsReaching (by decide) _ _ _, fun _ => mem_seedsReaching (by decide), hrun⟩

/-- Settles O20: INVRANGE8 is the INVRANGE command of width 8, its list the closed form of R146. -/
theorem invrange8Result : Obligations.Invrange8Result := by
  intro s buf h hr
  refine ⟨_, nodup_pairsReaching le_rfl _ _ _ (nodup_range hr), pairwise_snd_pairsReaching _ _ _ (pairwise_lt_range hr),
    fun c x => ?_, invrangeCommand_of_input (.inl rfl) h hr⟩
  rw [mem_pairsReaching le_rfl, mem_range hr, and_assoc]

/-- Settles O21: at width 16 an operand is its register (`operand_sixteen`). -/
theorem invrange16Result : Obligations.Invrange16Result := by
  intro s buf h hr
  have hrun := invrangeCommand_of_input (w := 16) (.inr rfl) h hr
  simp only [XorRangeValid, opPoly, opTarget, opXorStart, opXorEnd, operand_sixteen] at hr hrun
  refine ⟨_, nodup_pairsReaching (by decide) _ _ _ (nodup_range hr), pairwise_snd_pairsReaching _ _ _ (pairwise_lt_range hr),
    fun c x => ?_, hrun⟩
  rw [mem_pairsReaching (by decide), mem_range hr, and_assoc]

end Sys2Proof.Machine
end

section
/-! SUPPORT. Which command ends how (spec/60_exceptions.md section 1): BUFFER_LENGTH, INVALID_RANGE, or what it computed from its
input, and that RESOURCE_EXHAUSTED needs more records than RESULT_CAP has slots (R172 to R176). -/

namespace Sys2Proof.Machine

/-! ### From the start state to the ending (R172) -/

theorem exec_of_length {s : State} (h : s.params.bufCap < opLen s) (i : Instr) :
    exec i s = .next (afterError .bufferLength s) := by
  have he := exec_ends i s
  generalize exec i s = o at he
  cases he with
  | length _ => rfl
  | range hl _ | unwritten _ hl _ _ => exact absurd h (Nat.not_lt.2 hl)
  | computed _ _ _ hin _ => exact absurd h (Nat.not_lt.2 hin.1)

theorem exec_of_range {i : Instr} {s : State} (h : opLen s ≤ s.params.bufCap) (hr : ¬ RangesValid i s) :
    exec i s = .next (afterError .invalidRange s) := by
  have he := exec_ends i s
  generalize exec i s = o at he
  cases he with
  | length hl => exact absurd h (Nat.not_le.2 hl)
  | range _ _ => rfl
  | unwritten _ _ hv _ | computed _ _ hv _ _ => exact absurd hv hr

theorem exec_of_input {i : Instr} {s : State} {buf : List Byte} (h : HasInput s buf) (hr : RangesValid i s) :
    ∃ t, exec i s = .next t ∧ Computed i s t := by
  have he := exec_ends i s
  generalize exec i s = o at he
  cases he with
  | length hl => exact absurd h.1 (Nat.not_le.2 hl)
  | range _ hn => exact absurd hr hn
  | unwritten k _ _ hk => cases hk.symm.trans h.2
  | computed _ t _ _ hc => exact ⟨t, rfl, hc⟩

/-! ### From the ending back to the start state -/

/-- A command that computed its outcome ends without an error, or is no CRC command and ends with RESOURCE_EXHAUSTED (R176). -/
theorem Computed.err_cases {i : Instr} {s t : State} (h : Computed i s t) :
    t.status.err = none ∨ (¬ IsCrc i ∧ t = afterError .resourceExhausted s) := by
  cases h with
  | crcValue _ _ _ | records _ _ _ => exact .inl rfl
  | exhausted hi => exact .inr ⟨hi, rfl⟩

/-- The three errors that a command can end with, and what each says about its start state (R172, R174 to R176). -/
theorem exec_error_cases {i : Instr} {s t : State} {e : CmdError} (h : exec i s = .next t) (ht : t.status.err = some e) :
    (e = .bufferLength ∧ s.params.bufCap < opLen s) ∨ (e = .invalidRange ∧ ¬ RangesValid i s) ∨
      (e = .resourceExhausted ∧ ¬ IsCrc i ∧ t = afterError .resourceExhausted s ∧ RangesValid i s ∧
        ∃ buf, HasInput s buf) := by
  have he := exec_ends i s
  rw [h] at he
  cases he with
  | length hl =>
    cases ht
    exact .inl ⟨rfl, hl⟩
  | range _ hr =>
    cases ht
    exact .inr (.inl ⟨rfl, hr⟩)
  | computed buf _ hr hin hc =>
    rcases hc.err_cases with hn | ⟨hi, rfl⟩
    · cases hn.symm.trans ht
    · cases ht
      exact .inr (.inr ⟨rfl, hi, rfl, hr, buf, hin⟩)

theorem exec_bufferLength {i : Instr} {s t : State} (h : exec i s = .next t) (ht : t.status.err = some .bufferLength) :
    s.params.bufCap < opLen s := by
  simpa using exec_error_cases h ht

theorem exec_invalidRange {i : Instr} {s t : State} (h : exec i s = .next t) (ht : t.status.err = some .invalidRange) :
    ¬ RangesValid i s := by
  simpa using exec_error_cases h ht

/-- A command that ends with RESOURCE_EXHAUSTED is no CRC command, passed every check of R172, and leaves no record. -/
theorem exec_exhausted {i : Instr} {s t : State} (h : exec i s = .next t)
    (ht : t.status.err = some .resourceExhausted) :
    ¬ IsCrc i ∧ t = afterError .resourceExhausted s ∧ RangesValid i s ∧ ∃ buf, HasInput s buf := by
  simpa using exec_error_cases h ht

/-! ### With 2^W slots no command is exhausted (R122, R144, R147) -/

section
variable {w : Nat} {s : State} {buf : List Byte} (hw : w = 8 ∨ w = 16) (h : HasInput s buf)
  (hcap : 2 ^ w ≤ s.params.resultCap)
include hw h hcap

/-- A search has at most one record a seed (R122). -/
theorem searchCommand_succeeds (hr : SearchRangesValid w s) (ref : Bool) :
    ∃ t, searchCommand w ref s = .next t ∧ t.status.err = none := by
  have hlen := length_searchPairs_le hr.1 buf (opPoly w s) (opTarget w s) (opXorStart w s) (opXorEnd w s)
  have hend := (opSeedEnd w s).isLt
  exact ⟨_, (searchCommand_of_input (eight_le_of_width hw) h hr ref).1 (by omega), rfl⟩

/-- An inversion has at most one record a seed (R144). -/
theorem invertCommand_succeeds : ∃ t, invertCommand w s = .next t ∧ t.status.err = none :=
  have hlen := length_le_of_nodup (nodup_seedsReaching (eight_le_of_width hw) buf (opPoly w s) (opTarget w s))
  ⟨_, (invertCommand_of_input hw h).1 (hlen.trans hcap), rfl⟩

/-- An inversion over a range has at most one record a seed (R147). -/
theorem invrangeCommand_succeeds (hr : XorRangeValid w s) :
    ∃ t, invrangeCommand w s = .next t ∧ t.status.err = none :=
  have hlen := length_pairsReaching_le (eight_le_of_width hw) buf (opPoly w s) (opTarget w s) (nodup_range hr)
  ⟨_, (invrangeCommand_of_input hw h hr).1 (hlen.trans hcap), rfl⟩

end

/-- A command whose checks pass ends without an error when it is a CRC command or there are 2^W slots (R176). -/
theorem exec_succeeds {i : Instr} {s : State} {buf : List Byte} (h : HasInput s buf) (hr : RangesValid i s)
    (hcap : IsCrc i ∨ 2 ^ commandWidth i ≤ s.params.resultCap) : ∃ t, exec i s = .next t ∧ t.status.err = none := by
  cases i with
  | crc8 ref rb rf => exact ⟨_, crcCommand_of_input (w := 8) (by decide) h ref rb rf, rfl⟩
  | crc16 ref rb rf => exact ⟨_, crcCommand_of_input (w := 16) (by decide) h ref rb rf, rfl⟩
  | search8 ref => exact searchCommand_succeeds (.inl rfl) h (hcap.resolve_left id) hr ref
  | search16 ref => exact searchCommand_succeeds (.inr rfl) h (hcap.resolve_left id) hr ref
  | invert8 => exact invertCommand_succeeds (.inl rfl) h (hcap.resolve_left id)
  | invert16 => exact invertCommand_succeeds (.inr rfl) h (hcap.resolve_left id)
  | invrange8 => exact invrangeCommand_succeeds (.inl rfl) h (hcap.resolve_left id) hr
  | invrange16 => exact invrangeCommand_succeeds (.inr rfl) h (hcap.resolve_left id) hr

end Sys2Proof.Machine
end

section
/-! SUPPORT. The outcome of an engine step as a function of its inputs (R33, R183). -/

namespace Sys2Proof.Machine

/-- Two engine steps, from `s` and from `t`, end alike: with one fault, or with one outcome of R42 applied to each start state.
`crc` says that the word was a CRC command's, whose outcome is no list of records. -/
inductive EndAlike (crc : Prop) (s t : State) : Host.Outcome State Fault Refusal → Host.Outcome State Fault Refusal → Prop where
  | fault (f : Fault) : EndAlike crc s t (.fault f) (.fault f)
  | complete {w : Nat} (o : CmdOutcome w) : (crc → ∀ l, o ≠ .okRecords l) →
      EndAlike crc s t (.next (complete o s)) (.next (complete o t))

variable {crc : Prop} {s t : State}

/-- One outcome applied to two states leaves the same error, COUNT and records in both. -/
theorem complete_alike {w : Nat} (o : CmdOutcome w) (s t : State) :
    (complete o s).status.err = (complete o t).status.err ∧ (complete o s).count = (complete o t).count ∧
      (complete o s).res = (complete o t).res ∧ (s.crcOut = t.crcOut → (complete o s).crcOut = (complete o t).crcOut) := by
  cases o with
  | okCrc v => exact ⟨rfl, rfl, rfl, fun _ => rfl⟩
  | okRecords l => exact ⟨rfl, rfl, rfl, id⟩
  | err e => exact ⟨rfl, rfl, rfl, id⟩

/-- An outcome without an error that is no list of records is a CRC, which CRC_OUT then holds whatever it was (R29, R42). -/
theorem complete_crcOut_alike {w : Nat} {o : CmdOutcome w} (ho : ∀ l, o ≠ .okRecords l)
    (herr : (complete o s).status.err = none) : (complete o s).crcOut = (complete o t).crcOut := by
  cases o with
  | okCrc v => rfl
  | okRecords l => exact absurd rfl (ho l)
  | err e => cases herr

theorem EndAlike.next {x y : Host.Outcome State Fault Refusal} (h : EndAlike crc s t x y) {a : State} (hx : x = .next a) :
    ∃ b, y = .next b ∧ a.status.err = b.status.err ∧ a.count = b.count ∧ a.res = b.res ∧
      (s.crcOut = t.crcOut → a.crcOut = b.crcOut) ∧ (crc → a.status.err = none → a.crcOut = b.crcOut) := by
  cases h with
  | fault f => cases hx
  | complete o ho =>
    cases hx
    obtain ⟨herr, hcount, hres, hcrc⟩ := complete_alike o s t
    exact ⟨_, rfl, herr, hcount, hres, hcrc, fun hc hn => complete_crcOut_alike (ho hc) hn⟩

theorem EndAlike.eq_fault {x y : Host.Outcome State Fault Refusal} (h : EndAlike crc s t x y) {f : Fault} (hx : x = .fault f) :
    y = .fault f := by
  cases h with
  | fault f => exact hx
  | complete o _ => cases hx

/-- An illegal word completes with ILLEGAL_COMMAND (R173). -/
theorem engineStep_of_error {e : DecodeError} (h : decode s.cmd = .error e) :
    engineStep s = .next (complete (w := 8) (.err .illegalCommand) s) := by
  simp only [engineStep, h, illegalCommand]

section
variable (h : SameInputs s t)
include h

theorem SameInputs.opLen_eq : opLen s = opLen t := congrArg BitVec.toNat h.len

theorem SameInputs.bufBytes_eq : bufBytes s.buf (opLen s) = bufBytes t.buf (opLen t) :=
  (bufBytes_congr h.bytes).trans (by rw [h.opLen_eq])

/-- Validation reads BUF_CAP, LEN and the bytes below LEN, and nothing else (R172). -/
theorem runCommand_endAlike {w : Nat} (e : Option CmdError) (body : List Byte → CmdOutcome w)
    (hbody : crc → ∀ buf l, body buf ≠ .okRecords l) : EndAlike crc s t (runCommand s e body) (runCommand t e body) := by
  rcases runCommand_cases s e body with ⟨hl, hs⟩ | ⟨hl, e, rfl, hs⟩ | ⟨hl, rfl, k, hk, hs⟩ | ⟨hl, rfl, buf, hk, hs⟩ <;>
    rw [h.bufCap, h.opLen_eq] at hl <;> rw [hs]
  · rw [runCommand_length hl]; exact .complete _ fun _ _ => nofun
  · rw [runCommand_range hl]; exact .complete _ fun _ _ => nofun
  · rw [runCommand_fault hl (h.bufBytes_eq ▸ hk)]; exact .fault _
  · rw [runCommand_ok ⟨hl, h.bufBytes_eq ▸ hk⟩]; exact .complete _ fun hc => hbody hc buf

theorem crcCommand_endAlike (w : Nat) (ref rb rf : Bool) :
    EndAlike crc s t (crcCommand w ref rb rf s) (crcCommand w ref rb rf t) := by
  simp only [crcCommand, opPoly, opSeed, opXorOut, h.poly, h.seed, h.xorOut]
  exact runCommand_endAlike h _ _ fun _ _ _ => nofun

theorem searchCommand_endAlike (hc : ¬ crc) (w : Nat) (ref : Bool) :
    EndAlike crc s t (searchCommand w ref s) (searchCommand w ref t) := by
  simp only [searchCommand, searchRangeError, xorRangeError, opPoly, opTarget, opSeedStart, opSeedEnd, opXorStart, opXorEnd,
    h.poly, h.target, h.seedStart, h.seedEnd, h.xorStart, h.xorEnd, h.resultCap]
  exact runCommand_endAlike h _ _ fun hc' => absurd hc' hc

theorem invertCommand_endAlike (hc : ¬ crc) (w : Nat) : EndAlike crc s t (invertCommand w s) (invertCommand w t) := by
  simp only [invertCommand, opPoly, opTarget, h.poly, h.target, h.resultCap]
  exact runCommand_endAlike h _ _ fun hc' => absurd hc' hc

theorem invrangeCommand_endAlike (hc : ¬ crc) (w : Nat) :
    EndAlike crc s t (invrangeCommand w s) (invrangeCommand w t) := by
  simp only [invrangeCommand, xorRangeError, opPoly, opTarget, opXorStart, opXorEnd, h.poly, h.target, h.xorStart, h.xorEnd,
    h.resultCap]
  exact runCommand_endAlike h _ _ fun hc' => absurd hc' hc

theorem exec_endAlike (i : Instr) : EndAlike (IsCrc i) s t (exec i s) (exec i t) := by
  cases i with
  | crc8 ref rb rf => exact crcCommand_endAlike h 8 ref rb rf
  | crc16 ref rb rf => exact crcCommand_endAlike h 16 ref rb rf
  | search8 ref => exact searchCommand_endAlike h id 8 ref
  | search16 ref => exact searchCommand_endAlike h id 16 ref
  | invert8 => exact invertCommand_endAlike h id 8
  | invert16 => exact invertCommand_endAlike h id 16
  | invrange8 => exact invrangeCommand_endAlike h id 8
  | invrange16 => exact invrangeCommand_endAlike h id 16

/-- What the engine's step computes from depends on the word in CMD and on the inputs alone (R183). -/
theorem engineStep_endAlike (hcmd : s.cmd = t.cmd) :
    EndAlike (∃ i, decode s.cmd = .ok i ∧ IsCrc i) s t (engineStep s) (engineStep t) := by
  cases hd : decode s.cmd with
  | ok i =>
    have hcrc : (∃ j, (.ok i : Except DecodeError Instr) = .ok j ∧ IsCrc j) ↔ IsCrc i := by simp
    rw [hcrc, engineStep_of_decode hd, engineStep_of_decode (hcmd ▸ hd)]
    exact exec_endAlike h i
  | error e =>
    rw [engineStep_of_error hd, engineStep_of_error (hcmd ▸ hd)]
    exact .complete (w := 8) (.err .illegalCommand) fun _ _ => nofun

end

end Sys2Proof.Machine
end

section
/-! SUPPORT. Bus errors (R178, R180): which accesses end with one, and that nothing clears the host's fault; and the one event by
which a block becomes busy (R40, R189). -/

namespace Sys2Proof.Machine

/-! ### Which accesses end with a bus error -/

/-- The block's range is the 2^20 bytes from BASE on (R50). -/
theorem inBlock_offset (p : Params) {off : Nat} (h : off ≤ 0xFFFFF) : inBlock p (p.base + off) = true := by
  rw [inBlock_iff]
  omega

/-- A bad access reaches nothing, since each thing there is to reach lies at another offset (R50, R178). -/
theorem busTarget_of_badAccess {p : Params} (hp : p.Valid) {width : AccessWidth} {off : Nat} (h : BadAccess p width off) :
    busTarget p width off = none := by
  have hbuf := hp.bufCapMax
  have hres := hp.resultCapMax
  by_contra hne
  obtain ⟨t, ht⟩ := Option.ne_none_iff_exists'.1 hne
  obtain ⟨hw, ⟨r, _, ho⟩ | ⟨k, _, ho, hk⟩ | ⟨i, _, ho, hi⟩⟩ := busTarget_cases ht <;>
    replace h := h.resolve_left (absurd hw)
  · have hlt := regOffset_lt r
    have h4 := regOffset_aligned r
    omega
  · omega
  · omega

/-- What an access that is not bad reaches (R50). -/
theorem reaches_of_not_badAccess {p : Params} {width : AccessWidth} {off : Nat} (hoff : off ≤ 0xFFFFF)
    (h : ¬ BadAccess p width off) :
    width = .w32 ∧ ((∃ r, off = regOffset r) ∨ (∃ k, off = 0x10000 + 4 * k ∧ 4 * k < p.bufCap) ∨
      (∃ i, off = 0x40000 + 4 * i ∧ i < p.resultCap)) := by
  rw [BadAccess, not_or, not_not] at h
  obtain ⟨hw, h⟩ := h
  refine ⟨hw, ?_⟩
  by_cases hreg : off < 0x34
  · exact .inl (exists_regOffset hreg (by omega))
  · by_cases hbuf : off < 0x40000
    · exact .inr (.inl ⟨(off - 0x10000) / 4, by omega, by omega⟩)
    · exact .inr (.inr ⟨(off - 0x40000) / 4, by omega, by omega⟩)

section
variable {s : State} {width : AccessWidth} {off : Nat} (hp : s.params.Valid) (hoff : off ≤ 0xFFFFF)
include hp hoff

theorem hostRead_of_badAccess (h : BadAccess s.params width off) :
    hostRead width (s.params.base + off) s = busError (s.params.base + off) s := by
  simp only [hostRead, inBlock_offset s.params hoff, if_true, Nat.add_sub_cancel_left, busTarget_of_badAccess hp h]

theorem hostWrite_of_badAccess (h : BadAccess s.params width off) (v : Word) :
    hostWrite width (s.params.base + off) v s = busError (s.params.base + off) s := by
  simp only [hostWrite, inBlock_offset s.params hoff, if_true, Nat.add_sub_cancel_left, busTarget_of_badAccess hp h]

/-- Every write to the RES window is a bus error: its offset is bad, or it is a slot's (R55). -/
theorem hostWrite_resWindow (h : 0x40000 ≤ off) (v : Word) :
    hostWrite width (s.params.base + off) v s = busError (s.params.base + off) s := by
  by_cases hbad : BadAccess s.params width off
  · exact hostWrite_of_badAccess hp hoff hbad v
  · have hbuf := hp.bufCapMax
    obtain ⟨rfl, ⟨r, rfl⟩ | ⟨k, rfl, hk⟩ | ⟨i, rfl, hi⟩⟩ := reaches_of_not_badAccess hoff hbad
    · exact absurd (regOffset_lt r) (by omega)
    · omega
    · rw [← Nat.add_assoc]
      exact hostWrite_resSlot hbuf hp.resultCapMax hi v

end

/-! ### The host's fault -/

@[simp] theorem readTarget_hostFault (t : Target) (s : State) : (readTarget t s).hostFault = s.hostFault := by
  rcases readTarget_cases t s with ⟨v, h⟩ | ⟨v, h⟩ <;> rw [h]
  · rfl
  · rfl

@[simp] theorem writeRegister_hostFault (r : RegName) (v : Word) (s : State) :
    (writeRegister r v s).hostFault = s.hostFault := by
  unfold writeRegister
  split
  · rfl
  · exact writeReg_hostFault r v s

@[simp] theorem writeBuf_hostFault (k : Nat) (v : Word) (s : State) : (writeBuf k v s).hostFault = s.hostFault := by
  unfold writeBuf
  split <;> rfl

section
variable {s : State} {width : AccessWidth} {off : Nat} (hp : s.params.Valid) (hoff : off ≤ 0xFFFFF)
  (h : ¬ BadAccess s.params width off)
include hp hoff h

theorem hostRead_hostFault_of_not_badAccess : (hostRead width (s.params.base + off) s).hostFault = s.hostFault := by
  obtain ⟨rfl, ⟨r, rfl⟩ | ⟨k, rfl, hk⟩ | ⟨i, rfl, hi⟩⟩ := reaches_of_not_badAccess hoff h
  · rw [hostRead_reg]
    exact readTarget_hostFault (.reg r) s
  · rw [← Nat.add_assoc, hostRead_buf hp.bufCapMax hk]
    exact readTarget_hostFault (.buf (4 * k)) s
  · rw [← Nat.add_assoc, hostRead_res hp.bufCapMax hp.resultCapMax hi]
    exact readTarget_hostFault (.res i) s

theorem hostWrite_hostFault_of_not_badAccess (hres : off < 0x40000) (v : Word) :
    (hostWrite width (s.params.base + off) v s).hostFault = s.hostFault := by
  obtain ⟨rfl, ⟨r, rfl⟩ | ⟨k, rfl, hk⟩ | ⟨i, rfl, hi⟩⟩ := reaches_of_not_badAccess hoff h
  · rw [hostWrite_reg, respond_hostFault, writeRegister_hostFault]
  · rw [← Nat.add_assoc, hostWrite_buf hp.bufCapMax hk, respond_hostFault, writeBuf_hostFault]
  · omega

end

/-- A stopped host stays stopped: no completion and no reset touches its fault, and it performs no access (R178). -/
theorem step_hostFault {s t : State} (hf : s.hostFault ≠ none) (h : step s = .next t) : t.hostFault = s.hostFault := by
  rcases step_next_cases h with ⟨_, he⟩ | ⟨_, _, rfl⟩ | ⟨_, u, rest, _, rfl⟩
  · obtain ⟨w, o, rfl, _, _⟩ := engineStep_completes he
    exact complete_hostFault o s
  · rfl
  · rw [deliver_stopped (s := setAgenda rest s) hf]
    split <;> rfl

/-! ### How a block becomes busy (R40) -/

/-- Of all host writes only an idle 32-bit write to CMD makes a block busy, and CMD holds its value. -/
theorem hostWrite_accepts {s : State} {width : AccessWidth} {addr : Nat} {v : Word} (hb : s.status.busy = false)
    (ht : (hostWrite width addr v s).status.busy = true) :
    width = .w32 ∧ addr = s.params.base + regOffset .cmd ∧ (hostWrite width addr v s).cmd = v := by
  rcases hostWrite_cases width addr v s with h | h | ⟨hb', _, _, h⟩ | ⟨r, _, hw, ha, h⟩ | ⟨k, _, _, _, _, h⟩ <;>
    rw [h] at ht ⊢
  · cases hb.symm.trans ht
  · cases hb.symm.trans ht
  · cases hb.symm.trans hb'
  · obtain rfl : r = .cmd := by
      by_contra hc
      by_cases hs : r = .status
      · subst hs
        cases hb.symm.trans ((statusWritten_busy v s.status).symm.trans ht)
      · rw [respond_status, writeReg_status hc hs] at ht
        cases hb.symm.trans ht
    exact ⟨hw, ha, rfl⟩
  · cases hb.symm.trans ht

theorem deliver_accepts {u : Turn} {s : State} (hb : s.status.busy = false) (ht : (deliver u s).status.busy = true) :
    ∃ v, u.event = .write .w32 (s.params.base + regOffset .cmd) v ∧ (deliver u s).cmd = v := by
  rcases deliver_cases u s with ⟨_, h⟩ | ⟨_, h⟩ | ⟨_, width, addr, _, h⟩ | ⟨_, width, addr, v, he, h⟩ | ⟨_, _, h⟩ <;>
    rw [h] at ht ⊢
  · cases hb.symm.trans ht
  · cases ht
  · rw [← (sameBlock_hostRead width addr s).status] at ht
    cases hb.symm.trans ht
  · obtain ⟨rfl, rfl, hcmd⟩ := hostWrite_accepts hb ht
    exact ⟨v, he, hcmd⟩
  · rw [← (sameBlock_hostPoll u.lead s).status] at ht
    cases hb.symm.trans ht

/-- A step makes a block busy only by a 32-bit write to CMD (R189). -/
theorem step_accepts {s t : State} (hb : s.status.busy = false) (h : step s = .next t) (ht : t.status.busy = true) :
    ∃ v, nextEvent s = some (.write .w32 (s.params.base + regOffset .cmd) v) ∧ t.cmd = v := by
  rcases step_next_cases h with ⟨he, _⟩ | ⟨_, _, rfl⟩ | ⟨_, u, rest, ha, rfl⟩
  · cases hb.symm.trans (engineTurn_busy he)
  · cases hb.symm.trans ht
  · obtain ⟨v, he, hcmd⟩ := deliver_accepts (s := setAgenda rest s) hb ht
    exact ⟨v, by simp [nextEvent, ha, he], hcmd⟩

theorem step_idle {s : State} (hb : s.status.busy = false) (ha : s.agenda = []) : step s = .next s := by
  have he : engineTurn s = false := by simp [engineTurn, hb]
  rw [step_host he, hostStep, ha]

end Sys2Proof.Machine
end

section
/-! SUPPORT. The statements about errors and bus errors (spec/60_exceptions.md) and about what a command's ending depends on,
each from the lemmas above. -/

namespace Sys2Proof.Machine

/-- Settles O28: only a computed outcome is RESOURCE_EXHAUSTED (`exec_exhausted`), and with 2^W slots the records of every
command fit (`exec_succeeds`). -/
theorem exhaustionNeedsSmallResults : Obligations.ExhaustionNeedsSmallResults := by
  refine ⟨fun i s t h ht => ?_, fun i s t h hcap ht => ?_⟩
  · obtain ⟨hi, rfl, _⟩ := exec_exhausted h ht
    exact ⟨rfl, rfl, hi⟩
  · obtain ⟨_, _, hr, buf, hin⟩ := exec_exhausted h ht
    obtain ⟨t', ht', hnone⟩ := exec_succeeds hin hr (.inr hcap)
    cases h.symm.trans ht'
    cases hnone.symm.trans ht

/-- Settles O22: a command with its input ends with what it computed, which has no error but RESOURCE_EXHAUSTED. -/
theorem everyCommandCompletes : Obligations.EveryCommandCompletes := by
  intro i s buf hin hr
  obtain ⟨t, h, hc⟩ := exec_of_input hin hr
  have hend : t.status.busy = false ∧ t.status.done = true := by
    obtain ⟨w, o, rfl, _, _⟩ := exec_next_completes h
    exact ⟨complete_busy o s, complete_done o s⟩
  refine ⟨t, h, hend.1, hend.2, hc.err_cases.imp_right fun ⟨_, he⟩ => he ▸ rfl, fun hcap => ?_⟩
  obtain ⟨t', ht', hnone⟩ := exec_succeeds hin hr hcap
  cases h.symm.trans ht'
  exact hnone

/-- Settles O24: the engine steps of two states that agree on the inputs end alike (`engineStep_endAlike`). -/
theorem outcomeFromInputsAlone : Obligations.OutcomeFromInputsAlone := by
  intro s t hin hcmd
  have halike := engineStep_endAlike hin hcmd
  refine ⟨fun a ha => ?_, fun f hf => halike.eq_fault hf⟩
  obtain ⟨b, hb, herr, hcount, hres, hsame, hcrc⟩ := halike.next ha
  exact ⟨b, hb, herr, hcount, hres, hsame, fun i hi hc => hcrc ⟨i, hi, hc⟩⟩

/-- Settles O25: the check of LEN comes first, and nothing else raises BUFFER_LENGTH. -/
theorem lengthAboveCapacityIsError : Obligations.LengthAboveCapacityIsError := by
  refine ⟨fun i s h => exec_of_length h i, fun i s t h ht => ?_⟩
  have hlt : s.params.bufCap < s.len.toNat := exec_bufferLength h ht
  exact ⟨hlt, fun h0 => by simp [h0] at hlt⟩

/-- Settles O26: the range checks come next, and nothing else raises INVALID_RANGE. -/
theorem invertedRangeIsError : Obligations.InvertedRangeIsError :=
  ⟨fun _ _ h hr => exec_of_range h hr, fun _ _ _ h ht => exec_invalidRange h ht,
    fun _ _ a => by rw [range, Nat.sub_self, rangeLoop]⟩

/-- Settles O7: an idle host turn with nothing to deliver is no change, and of the host's events only a CMD write is accepted. -/
theorem idleBlockWaitsForCommand : Obligations.IdleBlockWaitsForCommand :=
  ⟨fun _ => step_idle, fun _ _ => step_accepts⟩

/-- Settles O51: the busy write is answered like any other write, and only reset and a write to STATUS clear WERR. -/
theorem droppedWriteCompletes : Obligations.DroppedWriteCompletes := by
  refine ⟨fun s v r hb hr => ?_, fun s v k hp hb hk => ?_, fun s t h h1 => ?_, fun i s t h => ?_⟩
  · rw [hostWrite_reg, writeRegister_busy hb hr]
    exact ⟨rfl, rfl, rfl⟩
  · rw [hostWrite_buf hp.bufCapMax hk, writeBuf_busy hb]
    exact ⟨rfl, rfl, rfl⟩
  · cases h0 : t.status.werr with
    | true => exact .inl rfl
    | false => exact .inr (step_clears_werr h h1 h0)
  · obtain ⟨w, o, rfl, _, _⟩ := exec_next_completes h
    exact complete_werr o s

/-- Settles O58: the bad offsets and widths are those that reach nothing, a write to RES reaches no register or BUF word, and no
step clears the host's fault. -/
theorem busErrors : Obligations.BusErrors := by
  refine ⟨fun s width off v hp hoff => ⟨fun hbad => ?_, fun hlow _ => ?_, fun hgood => ?_⟩, fun s addr => ?_,
    fun s t hf h => step_hostFault hf h⟩
  · exact ⟨hostRead_of_badAccess hp hoff hbad, hostWrite_of_badAccess hp hoff hbad v⟩
  · exact hostWrite_resWindow hp hoff hlow v
  · exact ⟨hostRead_hostFault_of_not_badAccess hp hoff hgood,
      fun hlt => hostWrite_hostFault_of_not_badAccess hp hoff hgood hlt v⟩
  · exact ⟨sameBlock_busError addr s, rfl, rfl⟩

end Sys2Proof.Machine
end

section
/-! SUPPORT. The block after reset (spec/70_reset_and_hazards.md): a reset that finds a reset block changes nothing, so that what
holds of every reset block holds of the state after reset. -/

namespace Sys2Proof.Machine

/-- The state after reset is itself a reset block (R200). -/
theorem resetBlock_stateReset : resetBlock State.reset = State.reset := rfl

/-- STATUS reads 0 after reset: no flag is set, and ERR is the code of no error (R200). -/
@[simp] theorem statusWord_reset : statusWord Status.reset = 0#32 := by decide

/-- Every register of a reset block reads 0 (R200). -/
@[simp] theorem readReg_resetBlock (r : RegName) (s : State) : readReg r (resetBlock s) = 0#32 := by
  cases r with
  | status => exact statusWord_reset
  | cmd | poly | seed | xorOut | target | seedStart | seedEnd | xorStart | xorEnd | len | crcOut | count => rfl

/-- A reset block is idle: a command in progress is abandoned (R200). -/
theorem resetBlock_idle (s : State) : (resetBlock s).status.busy = false := rfl

/-- COUNT is 0 after reset, so that every RES slot lies at or beyond it and reads as a free value (R202). -/
@[simp] theorem readRes_resetBlock (i : Nat) (s : State) : readRes i (resetBlock s) = readDraw (resetBlock s) :=
  readRes_beyond (Nat.zero_le i)

/-- Settles O9: every register of a reset block reads 0, and being idle it accepts a CMD write as any idle block does (O43). -/
theorem resetClearsRegisters : Obligations.ResetClearsRegisters := by
  obtain ⟨hidle, -, -⟩ := commandAcceptance
  refine ⟨fun r => ?_, rfl, fun s => ⟨fun r => readReg_resetBlock r s, resetBlock_idle s, fun v => ?_⟩⟩
  · rw [← resetBlock_stateReset, readReg_resetBlock]
  · exact hidle (resetBlock s) v (resetBlock_idle s)

/-- Settles O10: reset empties BUF and RES, and no RES slot lies below a COUNT of 0. -/
theorem resetLeavesMemoriesUnspecified : Obligations.ResetLeavesMemoriesUnspecified :=
  ⟨fun k => bufRead_nil k, rfl, fun s => ⟨fun k => bufRead_nil k, fun i => readRes_resetBlock i s⟩⟩

end Sys2Proof.Machine
end
